-- ==== Sys2Proof/Word.lean ====
section
/-! DEFINITION. The fixed-width values of the RBC (spec/10_state.md R21 to R31, spec/92_eei_decisions.md D5, D6).
Bit 0 is the least significant bit and `a ++ b` puts `a` in the more significant bits (R9);
`uint` is `BitVec.toNat` and `sint` is `BitVec.toInt`, the two's-complement reading (R10). -/

namespace Sys2Proof

/-- One storage slot's content: a 16-bit sample (R21). -/
abbrev Sample := BitVec 16

/-- One byte of the transport stream or of a bus access (R62). -/
abbrev Byte := BitVec 8

/-- A command word, a register's value, or a word of the sink stream (R65). -/
abbrev Word := BitVec 32

/-- The field of a cursor or of the transfer's source offset (D5). -/
abbrev Cursor := BitVec 16

/-- The field of a length or of a count of words, wide enough for CAP = 65536 (D5). -/
abbrev Count := BitVec 17

end Sys2Proof
end

