-- ==== Sys2Proof/Syntax.lean ====
section
/-! DEFINITION. The commands of the RBC, one constructor per row of spec/opcode_table.json (R94).
An ill-formed word is no command: ILL is the decoder's own verdict (R98) and stands in Decode.lean. -/

namespace Sys2Proof

/-- A command a Host can write to CMD, with its operands as R93 assembles them. -/
inductive Instr where
  /-- NOP (R210). -/
  | nop
  /-- PUSH(SAMPLE): SAMPLE is a 16-bit vector, stored unchanged (R121, R93). -/
  | push (sample : Sample)
  /-- INGB(LAST, BYTE): one byte of a chunk, LAST set on the chunk's last byte (R151, R93). -/
  | ingb (last : Bool) (byte : Byte)
  /-- INGE: the end of a chunk with no further byte (R152). -/
  | inge
  /-- ADVR(N): N is an unsigned count in [0, 131071] (R122, R93); WellFormed.lean checks the range. -/
  | advr (n : Nat)
  /-- ARM: the manual first arm (R171). -/
  | arm
  deriving DecidableEq, Repr

end Sys2Proof
end

