-- ==== Sys2Proof/WellFormed.lean ====
section
/-! DEFINITION. Which terms of `Instr` a command word can carry (spec/30_encoding.md R92, R93).
SAMPLE, BYTE and LAST have their field's width by type; N is a number and its range is checked. -/

namespace Sys2Proof

/-- Some command word carries this instruction: `N = uint(w[16:0])` is in [0, 131071] (R93). -/
def Instr.wf : Instr → Bool
  | .nop => true
  | .push _ => true
  | .ingb _ _ => true
  | .inge => true
  | .advr n => decide (n ≤ 131071)
  | .arm => true

end Sys2Proof
end

