-- ==== Sys2Proof/Decode.lean ====
section
/-! DEFINITION. The command decoder and the encoder (spec/30_encoding.md R91 to R99). The decoder is total: every
32-bit word is a command or ILL, and it reads no state (R98, R99). -/

namespace Sys2Proof

/-- The decoder's verdict on a word (R98). -/
inductive Command where
  /-- The word is a legal command. -/
  | cmd (i : Instr)
  /-- ILL: an unassigned opcode, or a reserved bit set (R95). -/
  | ill
  deriving DecidableEq, Repr

/-- `OP = w[31:28]` (R91). -/
def opField (w : Word) : Nat := (w.extractLsb' 28 4).toNat

/-- `SAMPLE = w[15:0]` (R93). -/
def sampleField (w : Word) : Sample := w.extractLsb' 0 16

/-- `LAST = w[8]` (R93). -/
def lastField (w : Word) : Bool := w.getLsbD 8

/-- `BYTE = w[7:0]` (R93). -/
def byteField (w : Word) : Byte := w.extractLsb' 0 8

/-- `N = uint(w[16:0])` (R93). -/
def countField (w : Word) : Nat := (w.extractLsb' 0 17).toNat

/-- The decoder of R99. -/
def decode (w : Word) : Command :=
  match opField w with
  | 0 => if w.extractLsb' 0 28 = 0 then .cmd .nop else .ill
  | 1 => if w.extractLsb' 16 12 = 0 then .cmd (.push (sampleField w)) else .ill
  | 2 => if w.extractLsb' 9 19 = 0 then .cmd (.ingb (lastField w) (byteField w)) else .ill
  | 3 => if w.extractLsb' 0 28 = 0 then .cmd .inge else .ill
  | 4 => if w.extractLsb' 17 11 = 0 then .cmd (.advr (countField w)) else .ill
  | 5 => if w.extractLsb' 0 28 = 0 then .cmd .arm else .ill
  | _ => .ill

/-- The word of an instruction: the opcode, the format's zeros, the operand fields (R92, R94). -/
def encode : Instr → Word
  | .nop => 0x0#4 ++ 0#28
  | .push sample => 0x1#4 ++ 0#12 ++ sample
  | .ingb last byte => 0x2#4 ++ 0#19 ++ BitVec.ofBool last ++ byte
  | .inge => 0x3#4 ++ 0#28
  | .advr n => 0x4#4 ++ 0#11 ++ BitVec.ofNat 17 n
  | .arm => 0x5#4 ++ 0#28

/-- `match` of the instruction's row in the opcode map (R94). -/
def rowMatch : Instr → Word
  | .nop => 0x00000000#32
  | .push _ => 0x10000000#32
  | .ingb _ _ => 0x20000000#32
  | .inge => 0x30000000#32
  | .advr _ => 0x40000000#32
  | .arm => 0x50000000#32

/-- `mask` of the instruction's row in the opcode map (R94). -/
def rowMask : Instr → Word
  | .nop => 0xFFFFFFFF#32
  | .push _ => 0xFFFF0000#32
  | .ingb _ _ => 0xFFFFFE00#32
  | .inge => 0xFFFFFFFF#32
  | .advr _ => 0xFFFE0000#32
  | .arm => 0xFFFFFFFF#32

/-- The decoder's answer for a word as spec/opcode_table.json numbers its bits: `w`'s low `nbits` bits, every bit above
them 0. Every command is one 32-bit word (R91). `none` where the verdict is ILL. -/
def decodeTableWord (nbits w : Nat) : Option Instr :=
  match decode (BitVec.ofNat 32 (w % 2 ^ nbits)) with
  | .cmd i => some i
  | .ill => none

end Sys2Proof
end

