-- ==== Sys2Proof/Config.lean ====
section
/-! DEFINITION. What the spec leaves to an implementation or to the outside world: the parameters (R6, R7), what the
agents outside can do (R20, R63, R70), and the free values, which are constants with no body: nothing can evaluate
them, so a statement that holds, holds whatever they are. -/

namespace Sys2Proof

/-- The implementation parameters of R6, with their legal ranges as facts about them: CAP = 0 and CAP = 1 are refused
(R7, I8) because no value of this type has them. FS is read by no rule (D30). -/
structure Params where
  /-- CAP: the number of storage slots. -/
  cap : Nat
  /-- SINK_DEPTH: how many words the sink's input FIFO holds. -/
  sinkDepth : Nat
  /-- BASE: the bus address of register offset 0. -/
  base : Nat
  /-- FS: the sample rate of the sink. -/
  fs : Nat
  two_le_cap : 2 ≤ cap
  cap_le : cap ≤ 65536
  one_le_sinkDepth : 1 ≤ sinkDepth
  base_aligned : base % 256 = 0
  fs_pos : 0 < fs
  deriving DecidableEq, Repr

/-- The parameters `State.reset` runs with. DESIGN CHOICE (log 1), unsafe: R6 leaves all four OPEN. CAP = 8 and
SINK_DEPTH = 2 are those of spec/95_test_vectors.md; no statement rests on these values. -/
def Params.launch : Params :=
  { cap := 8, sinkDepth := 2, base := 0, fs := 48000
    two_le_cap := by decide, cap_le := by decide, one_le_sinkDepth := by decide
    base_aligned := by decide, fs_pos := by decide }

/-- One Host access to the bus (R63): a read of `n` bytes, or a write of bytes, the first at the lowest address. -/
inductive Access where
  | read (addr : Nat) (n : Nat)
  | write (addr : Nat) (bytes : List Byte)
  deriving DecidableEq, Repr

/-- What may come next (R70): one step of one agent, or the platform's reset. -/
inductive Event where
  /-- The Host makes one bus access. -/
  | host (a : Access)
  /-- The Engine's turn: its enabled step, if it has one. -/
  | engine
  /-- The Sink's turn: CONSUME, if it is enabled. -/
  | sink
  /-- The platform asserts reset (R260). -/
  | reset
  deriving DecidableEq, Repr, Inhabited

/-- BCLK_RATIO: 64 as the source quotes it; no rule depends on it (R6, conflict C4). -/
def Config.bclkRatio : Nat := 64

/-- FREE VALUE (log 2): what slot `i` holds when the first run begins, STORAGE_INIT of the power-on reset (R21, R262). -/
opaque Config.powerUp : Nat → Sample

/-- FREE VALUE (log 2): STORAGE_INIT of a later reset (R262), given which reset it is, the slot, and what the slot held
before. Hardware that keeps its contents, clears them, or powers up random is an instance of it. -/
opaque Config.storageInit : Nat → Nat → Sample → Sample

/-- FREE VALUE (log 4): the next event where the state's schedule names none. The spec fixes no order between agents and
no Host program (R20, R70). -/
opaque Config.freeEvent : Nat → Event

end Sys2Proof
end

