-- ==== Sys2Proof/Machine/State.lean ====
section
/-! DEFINITION. The state of the RBC (spec/10_state.md R20 to R39) as plain data, the reasons a step can stop, and the
state after reset. Registers the Host reads are computed from these fields (Flags.lean, Bus.lean). -/

namespace Sys2Proof.Machine

/-- PHASE (R24); the encodings 5, 6 and 7 are never held and have no value here (I11). -/
inductive Phase where
  | idle
  | armed
  | cAck
  | cAdv
  | cRearm
  deriving DecidableEq, Repr

/-- The storage written since the last reset: pairs of slot index and sample, indices strictly rising (`Memory.wf`).
A slot that is not listed holds `unwritten`, its STORAGE_INIT content (log 3). -/
abbrev Memory := List (Nat × Sample)

/-- Why the machine stops with a fault. -/
inductive Fault where
  /-- Raised by a storage write (TryWrite) at an index that is not below CAP: no such slot exists (R60, R61). Safe: it
  needs WCUR out of its range, which no reachable state has (R36); log 6. -/
  | slotOutOfRange
  deriving DecidableEq, Repr

/-- Why a step has no meaning. -/
inductive Refusal where
  /-- Raised by an arm of `exec` whose instruction has no meaning yet; no arm of this model does. Safe. -/
  | notModelled (mnemonic : String)
  deriving DecidableEq, Repr

/-- Everything the spec gives the machine, the parameters it takes as arguments, and four fields of the model's own. -/
structure State where
  /-- The implementation parameters (R6); no step changes them. -/
  params : Params
  /-- STOR (R21). -/
  stor : Memory
  /-- WCUR (R22). -/
  wcur : Cursor
  /-- RCUR (R23). -/
  rcur : Cursor
  /-- PHASE (R24). -/
  phase : Phase
  /-- XSRC (R25). -/
  xsrc : Cursor
  /-- XLEN (R26). -/
  xlen : Count
  /-- XCNT (R27). -/
  xcnt : Count
  /-- PENDB (R28). -/
  pendb : Bool
  /-- PENDLO (R28). -/
  pendlo : Byte
  /-- LPV (R29). -/
  lpv : Bool
  /-- LPOK (R29). -/
  lpok : Bool
  /-- BADCMD (R30). -/
  badcmd : Bool
  /-- SFIFO, head first (R31). -/
  sfifo : List Word
  /-- OUT, oldest first (R31). -/
  out : List Word
  /-- Model's own: the bytes each register read returned to the Host, oldest first (R212; log 5). -/
  replies : List (List Byte)
  /-- Model's own: the events that come next, in order (R70; log 4). -/
  sched : List Event
  /-- Model's own: how many free events have been taken (log 4). -/
  tick : Nat
  /-- Model's own: how many resets have come after the power-on reset (R262; log 2). -/
  resets : Nat
  deriving DecidableEq, Repr

/-- The state after the power-on reset of an RBC with parameters `p` (R39, R260), SFIFO and OUT empty at launch (R31).
The model's own fields start empty and 0: DESIGN CHOICE, log 2, 4 and 5. -/
def State.resetWith (p : Params) : State :=
  { params := p, stor := [], wcur := 0, rcur := 0, phase := .idle, xsrc := 0, xlen := 0, xcnt := 0
    pendb := false, pendlo := 0, lpv := false, lpok := false, badcmd := false
    sfifo := [], out := [], replies := [], sched := [], tick := 0, resets := 0 }

/-- The machine right after reset. Its parameters are a DESIGN CHOICE (log 1). -/
def State.reset : State := State.resetWith Params.launch

/-- The three outcomes of a step. -/
abbrev Result := Host.Outcome State Fault Refusal

end Sys2Proof.Machine
end

