-- ==== Sys2Proof/Machine/Operands.lean ====
section
/-! DEFINITION. How operands, samples, words and indices are put together (spec/00_scope.md R9, R10, spec/20_memory.md
R62, spec/41_ingest.md R151, R156, spec/42_streaming.md R177). -/

namespace Sys2Proof.Machine

/-- The sample of a byte pair: `{hi, lo}`, the second byte of the pair high (R62 item 1, R151). -/
def sampleOf (hi lo : Byte) : Sample := hi ++ lo

/-- The sink word of a sample: `{s, s}`, the sample on both channels (R177). -/
def sinkWord (s : Sample) : Word := s ++ s

/-- A sample as audio: the signed integer it stands for in two's complement (R156, R10). -/
def audioValue (s : Sample) : Int := s.toInt

/-- The word of bytes at rising addresses: byte `k` is bits `[8k+7:8k]` (R62 item 2). -/
def wordOfBytes : List Byte → Word
  | [] => 0
  | b :: bs => (wordOfBytes bs <<< 8) ||| b.setWidth 32

/-- The bytes of a word at rising addresses (R62 item 2). -/
def bytesOfWord (w : Word) : List Byte :=
  [w.extractLsb' 0 8, w.extractLsb' 8 8, w.extractLsb' 16 8, w.extractLsb' 24 8]

/-- `(x + n) mod CAP` computed exactly and then reduced (R8, R10, R123), as a cursor's field. -/
def wrapAdd (cap : Nat) (x : Cursor) (n : Nat) : Cursor := BitVec.ofNat 16 ((x.toNat + n) % cap)

/-- CAP in a length's 17-bit field (R26, D5). -/
def capCount (p : Params) : Count := BitVec.ofNat 17 p.cap

/-- The slot the next FETCH reads: `(XSRC + XCNT) mod CAP` (R27, R176). -/
def fetchIndex (s : State) : Nat := (s.xsrc.toNat + s.xcnt.toNat) % s.params.cap

end Sys2Proof.Machine
end

