-- ==== Sys2Proof/Machine/Flags.lean ====
section
/-! DEFINITION. The derived predicates EMPTY, FULL, COUNT and FREE (spec/00_scope.md R13), CPEND (spec/10_state.md R32),
the PHASE encoding (R24) and the STATUS register (R38). -/

namespace Sys2Proof.Machine

/-- `EMPTY := (WCUR == RCUR)` (R13). -/
def State.isEmpty (s : State) : Bool := s.wcur == s.rcur

/-- `FULL := ((WCUR + 1) mod CAP == RCUR)` (R13). -/
def State.isFull (s : State) : Bool := (s.wcur.toNat + 1) % s.params.cap == s.rcur.toNat

/-- `COUNT := (WCUR - RCUR) mod CAP`, never negative (R13, R10). -/
def State.count (s : State) : Nat := (((s.wcur.toNat : Int) - (s.rcur.toNat : Int)) % (s.params.cap : Int)).toNat

/-- `FREE := CAP - 1 - COUNT` (R13). -/
def State.free (s : State) : Nat := s.params.cap - 1 - s.count

/-- `CPEND := (PHASE == C_ACK)`: the completion signal is pending (R32). -/
def State.cpend (s : State) : Bool := s.phase == .cAck

/-- The 3-bit encoding of PHASE (R24). -/
def Phase.code : Phase → BitVec 3
  | .idle => 0
  | .armed => 1
  | .cAck => 2
  | .cAdv => 3
  | .cRearm => 4

/-- STATUS: `{COUNT[15:0], 0b000000, BADCMD, PENDB, LPOK, LPV, CPEND, PHASE[2:0], FULL, EMPTY}` (R38, R212). -/
def State.status (s : State) : Word :=
  BitVec.ofNat 16 s.count ++ 0#6 ++ BitVec.ofBool s.badcmd ++ BitVec.ofBool s.pendb ++ BitVec.ofBool s.lpok
    ++ BitVec.ofBool s.lpv ++ BitVec.ofBool s.cpend ++ s.phase.code ++ BitVec.ofBool s.isFull
    ++ BitVec.ofBool s.isEmpty

end Sys2Proof.Machine
end

