-- ==== Sys2Proof/Machine/Ops.lean ====
section
/-! DEFINITION. The shared operations: storage, the sink FIFO, the named updates of the state, TryWrite (spec/40_ring_buffer.md
R121) and AdvanceRead (R123), arming a transfer (spec/42_streaming.md R171, R180), raising the completion signal (R175, R236:
the RBC's one exception-like event; it saves nothing), and reset (spec/70_reset_and_hazards.md R260). -/

namespace Sys2Proof.Machine

/-! ### Storage -/

/-- The sample listed for slot `i`, if one is. -/
def Memory.lookup : Memory → Nat → Option Sample
  | [], _ => none
  | (j, v) :: m, i => if j = i then some v else Memory.lookup m i

/-- List `v` for slot `i`, keeping the indices strictly rising. -/
def Memory.put : Memory → Nat → Sample → Memory
  | [], i, v => [(i, v)]
  | (j, u) :: m, i, v =>
    if i < j then (i, v) :: (j, u) :: m
    else if i = j then (i, v) :: m
    else (j, u) :: Memory.put m i v

/-- Every index is at least `lo` and they rise strictly. -/
def Memory.risingFrom : Nat → Memory → Bool
  | _, [] => true
  | lo, (j, _) :: m => decide (lo ≤ j) && Memory.risingFrom (j + 1) m

/-- Every index is one of the CAP slots (R60). -/
def Memory.below : Nat → Memory → Bool
  | _, [] => true
  | cap, (j, _) :: m => decide (j < cap) && Memory.below cap m

/-- The canonical form: indices strictly rising, each one of the CAP slots. -/
def Memory.wf (cap : Nat) (m : Memory) : Bool := Memory.risingFrom 0 m && Memory.below cap m

/-- What a slot that nothing has written since the last reset holds: STORAGE_INIT, a free value, given how many resets
came after the power-on reset (R21, R262; log 2). -/
def unwritten : Nat → Nat → Sample
  | 0, i => Config.powerUp i
  | k + 1, i => Config.storageInit (k + 1) i (unwritten k i)

/-- `STOR[i]` read (R11, R21). -/
def State.slot (s : State) (i : Nat) : Sample := (s.stor.lookup i).getD (unwritten s.resets i)

/-- `STOR[i] <- v` (R11). An index that is not below CAP is no slot (R61; log 6). -/
def State.writeSlot (s : State) (i : Nat) (v : Sample) : Result :=
  if i < s.params.cap then .next { s with stor := s.stor.put i v } else .fault .slotOutOfRange

/-! ### Named updates -/

/-- `WCUR <- c`. -/
def State.setWcur (s : State) (c : Cursor) : State := { s with wcur := c }

/-- `RCUR <- c`. -/
def State.setRcur (s : State) (c : Cursor) : State := { s with rcur := c }

/-- `PHASE <- p`. -/
def State.setPhase (s : State) (p : Phase) : State := { s with phase := p }

/-- `XCNT <- n`. -/
def State.setXcnt (s : State) (n : Count) : State := { s with xcnt := n }

/-- `PENDB <- 1` and `PENDLO <- b` (R151). -/
def State.setPending (s : State) (b : Byte) : State := { s with pendb := true, pendlo := b }

/-- `PENDB <- 0` and `PENDLO <- 0` (R151, R152). -/
def State.clearPending (s : State) : State := { s with pendb := false, pendlo := 0 }

/-- `LPV <- 1` and `LPOK <- ok` (R121). -/
def State.setResult (s : State) (ok : Bool) : State := { s with lpv := true, lpok := ok }

/-- `BADCMD <- 1` (R30). -/
def State.setBadcmd (s : State) : State := { s with badcmd := true }

/-- The next state's continuation: `k` runs where `r` answers a next state. -/
def andThen (r : Result) (k : State → Result) : Result :=
  match r with
  | .next s => k s
  | .fault f => .fault f
  | .refused f => .refused f

/-! ### Ring buffer -/

/-- TryWrite (R121): FULL drops the sample; else the slot at WCUR first, then the cursor. The result goes to LPV and LPOK. -/
def tryWrite (v : Sample) (s : State) : Result :=
  if s.isFull then .next (s.setResult false)
  else andThen (s.writeSlot s.wcur.toNat v) fun t =>
    .next ((t.setWcur (wrapAdd t.params.cap t.wcur 1)).setResult true)

/-- AdvanceRead (R123): `RCUR <- (RCUR + n) mod CAP`, unconditionally. -/
def advanceRead (n : Nat) (s : State) : State := s.setRcur (wrapAdd s.params.cap s.rcur n)

/-! ### Streaming -/

/-- armTransfer(sourceOffset, length): `XSRC`, `XLEN`, `XCNT <- 0`, `PHASE <- ARMED` (R171, R172, R180). -/
def State.armTransfer (s : State) (source : Cursor) (length : Count) : State :=
  { s with xsrc := source, xlen := length, xcnt := 0, phase := .armed }

/-- The completion signal is raised: `PHASE <- C_ACK`. Taking it saves nothing (R175, R236). -/
def State.raiseCompletion (s : State) : State := s.setPhase .cAck

/-- The return from the completion handler: a fresh full-lap transfer from RCUR; nothing is restored (R180, R237). -/
def State.returnFromHandler (s : State) : State := s.armTransfer s.rcur (capCount s.params)

/-- The sink FIFO has room: `length(SFIFO) < SINK_DEPTH` (R68, R174). -/
def State.sinkHasRoom (s : State) : Bool := decide (s.sfifo.length < s.params.sinkDepth)

/-- `sink_push(w)`: `w` at the tail of SFIFO (R68). -/
def State.sinkPush (s : State) (w : Word) : State := { s with sfifo := s.sfifo ++ [w] }

/-- `OUT <- OUT ++ [sink_pop()]`, the oldest word of SFIFO; nothing where SFIFO is empty (R68, R181). -/
def State.sinkPop (s : State) : State :=
  match s.sfifo with
  | [] => s
  | w :: rest => { s with sfifo := rest, out := s.out ++ [w] }

/-! ### The Host's bus and reset -/

/-- A read's bytes go back to the Host (R212; log 5). -/
def State.reply (s : State) (bytes : List Byte) : State := { s with replies := s.replies ++ [bytes] }

/-- Every written slot's content after reset number `k`: STORAGE_INIT given the old content (R260, R262; log 2). -/
def Memory.reinit (k : Nat) : Memory → Memory
  | [] => []
  | (i, v) :: m => (i, Config.storageInit k i v) :: Memory.reinit k m

/-- RESET (R260): every RBC element to its value of R39; SFIFO and OUT, the parameters, and what is outside the RBC stay. -/
def State.applyReset (s : State) : State :=
  { s with
    stor := s.stor.reinit (s.resets + 1), resets := s.resets + 1
    wcur := 0, rcur := 0, phase := .idle, xsrc := 0, xlen := 0, xcnt := 0
    pendb := false, pendlo := 0, lpv := false, lpok := false, badcmd := false }

end Sys2Proof.Machine
end

