-- ==== Sys2Proof/Machine/Control.lean ====
section
/-! DEFINITION. NOP and the ill-formed command (spec/43_control.md R210, R211). -/

namespace Sys2Proof.Machine

/-- NOP: skip (R210). -/
def execNop (s : State) : Result := .next s

/-- ILL: `BADCMD <- 1`, nothing else (R211). It is the decoder's verdict and no row of the opcode table (log 10), so no arm of
`exec`; `runCommand` in Bus.lean calls it. -/
def execIll (s : State) : Result := .next s.setBadcmd

end Sys2Proof.Machine
end

