-- ==== Sys2Proof/Machine/Ingest.lean ====
section
/-! DEFINITION. The Sample Ingest decoder: INGB and INGE (spec/41_ingest.md R151, R152). -/

namespace Sys2Proof.Machine

/-- INGB(LAST, BYTE) (R151): a first byte is kept unless it ends its chunk; a second byte completes a sample, the
pending byte low, and hands it to TryWrite after the decoder is cleared. -/
def execIngb (last : Bool) (byte : Byte) (s : State) : Result :=
  match s.pendb, last with
  | false, false => .next (s.setPending byte)
  | false, true => .next s
  | true, _ => tryWrite (sampleOf byte s.pendlo) s.clearPending

/-- INGE: a pending low byte is discarded (R152). -/
def execInge (s : State) : Result := .next s.clearPending

end Sys2Proof.Machine
end

