-- ==== Sys2Proof/Machine/RingBuffer.lean ====
section
/-! DEFINITION. The ring buffer's commands PUSH and ADVR (spec/40_ring_buffer.md R121, R122). -/

namespace Sys2Proof.Machine

/-- PUSH(SAMPLE): `TryWrite(SAMPLE)`, in every PHASE (R121). -/
def execPush (sample : Sample) (s : State) : Result := tryWrite sample s

/-- ADVR(N): `AdvanceRead(N)` in IDLE; refused by `BADCMD <- 1` outside it (R122). -/
def execAdvr (n : Nat) (s : State) : Result :=
  if s.phase = .idle then .next (advanceRead n s) else .next s.setBadcmd

end Sys2Proof.Machine
end

