-- ==== Sys2Proof/Machine/Streaming.lean ====
section
/-! DEFINITION. The Streaming Engine and the sink (spec/42_streaming.md): the command ARM (R171), the Engine's steps FETCH
(R176), ACK (R178), ADV (R179) and REARM (R180), and the Sink's step CONSUME (R181). -/

namespace Sys2Proof.Machine

/-- ARM: in IDLE a full lap from RCUR is armed; refused by `BADCMD <- 1` outside it (R171). -/
def execArm (s : State) : Result :=
  if s.phase = .idle then .next (s.armTransfer s.rcur (capCount s.params)) else .next s.setBadcmd

/-- The Engine's steps; none has an encoding (R97). -/
inductive EngineStep where
  | fetch
  | ack
  | adv
  | rearm
  deriving DecidableEq, Repr

/-- "Enabled when" of each Engine step (R176, R178, R179, R180). -/
def EngineStep.enabled : EngineStep → State → Bool
  | .fetch, s => s.phase == .armed && decide (s.xcnt.toNat < s.xlen.toNat) && s.sinkHasRoom
  | .ack, s => s.phase == .cAck
  | .adv, s => s.phase == .cAdv
  | .rearm, s => s.phase == .cRearm

/-- FETCH (R176): one slot's sample goes to the sink on both channels; the transfer's last word raises the completion
signal in the same step (R175): the test is of the count after its increment. -/
def stepFetch (s : State) : State :=
  let t := (s.sinkPush (sinkWord (s.slot (fetchIndex s)))).setXcnt (s.xcnt + 1)
  if s.xcnt + 1 = s.xlen then t.raiseCompletion else t

/-- ACK: the completion signal is acknowledged (R178). -/
def stepAck (s : State) : State := s.setPhase .cAdv

/-- ADV: `AdvanceRead(XLEN)` (R179). -/
def stepAdv (s : State) : State := (advanceRead s.xlen.toNat s).setPhase .cRearm

/-- REARM: the re-issue of a full-lap transfer (R180). -/
def stepRearm (s : State) : State := s.returnFromHandler

/-- What an Engine step does. -/
def EngineStep.run : EngineStep → State → State
  | .fetch, s => stepFetch s
  | .ack, s => stepAck s
  | .adv, s => stepAdv s
  | .rearm, s => stepRearm s

/-- The one Engine step that may be enabled in this PHASE (R170, R235). -/
def engineCandidate (s : State) : Option EngineStep :=
  match s.phase with
  | .idle => none
  | .armed => some .fetch
  | .cAck => some .ack
  | .cAdv => some .adv
  | .cRearm => some .rearm

/-- Some Engine step is enabled (R170, R176, R178, R179, R180). -/
def engineEnabled (s : State) : Bool :=
  match engineCandidate s with
  | none => false
  | some e => e.enabled s

/-- The Engine's turn: its enabled step; nothing changes where none is (log 4). -/
def engineTurn (s : State) : State :=
  match engineCandidate s with
  | none => s
  | some e => if e.enabled s then e.run s else s

/-- CONSUME is enabled when SFIFO is not empty (R181). -/
def consumeEnabled (s : State) : Bool := !s.sfifo.isEmpty

/-- CONSUME: the Sink takes the oldest word of SFIFO and it is played (R181). -/
def stepConsume (s : State) : State := s.sinkPop

/-- The Sink's turn: CONSUME where it is enabled; nothing changes where it is not (log 4). -/
def sinkTurn (s : State) : State := if consumeEnabled s then stepConsume s else s

end Sys2Proof.Machine
end

