-- ==== Sys2Proof/Machine/Dispatch.lean ====
section
/-! DEFINITION. What each command does: one arm per constructor of `Instr`. -/

namespace Sys2Proof.Machine

def exec (i : Instr) (s : State) : Host.Outcome State Fault Refusal :=
  match i with
  | .nop => Sys2Proof.Machine.execNop s
  | .push sample => Sys2Proof.Machine.execPush sample s
  | .ingb last byte => Sys2Proof.Machine.execIngb last byte s
  | .inge => Sys2Proof.Machine.execInge s
  | .advr n => Sys2Proof.Machine.execAdvr n s
  | .arm => Sys2Proof.Machine.execArm s

end Sys2Proof.Machine
end

