-- ==== Sys2Proof/Machine/Bus.lean ====
section
/-! DEFINITION. The Host's accesses: the register space (spec/20_memory.md R63, R64, spec/10_state.md R37), command writes
(spec/30_encoding.md R90) and register reads (spec/43_control.md R212 to R214). -/

namespace Sys2Proof.Machine

/-- Some byte of the access lies in the register space `[BASE, BASE + 0x100)` (R60); any other access does not reach the
RBC (R64). DESIGN CHOICE (log 7): an access partly inside reaches it, an access of no bytes never does. -/
def reaches (p : Params) (addr n : Nat) : Bool :=
  decide (0 < n) && decide (addr < p.base + 0x100) && decide (p.base < addr + n)

/-- Well formed: `n = 4`, `off mod 4 = 0` and `0 <= off <= 0xFC` (R63). -/
def accessOk (p : Params) (addr n : Nat) : Bool :=
  n == 4 && decide (p.base ≤ addr) && (addr - p.base) % 4 == 0 && decide (addr - p.base ≤ 0xFC)

/-- ReadReg(off) (R212, R37): CMD and the reserved offsets read 0. -/
def regRead (s : State) (off : Nat) : Word :=
  match off with
  | 0x00 => 0
  | 0x04 => s.status
  | 0x08 => s.wcur.setWidth 32
  | 0x0C => s.rcur.setWidth 32
  | 0x10 => (capCount s.params).setWidth 32
  | 0x14 => s.xsrc.setWidth 32
  | 0x18 => s.xlen.setWidth 32
  | 0x1C => s.xcnt.setWidth 32
  | _ => 0

/-- The bytes a read returns: the register's, or zeros where the access is not well formed (R63, R64, R214). -/
def readBytes (s : State) (addr n : Nat) : List Byte :=
  if accessOk s.params addr n then bytesOfWord (regRead s (addr - s.params.base)) else List.replicate n 0

/-- One command word: its command, or ILL (R90, R95, R99). -/
def runCommand (w : Word) (s : State) : Result :=
  match decode w with
  | .cmd i => exec i s
  | .ill => execIll s

/-- One Host access in one step (R63, R64, R67, R212 to R214). -/
def busAccess (a : Access) (s : State) : Result :=
  match a with
  | .read addr n => if reaches s.params addr n then .next (s.reply (readBytes s addr n)) else .next s
  | .write addr bytes =>
    if accessOk s.params addr bytes.length && addr - s.params.base == 0 then runCommand (wordOfBytes bytes) s
    else .next s

end Sys2Proof.Machine
end

