-- ==== Sys2Proof/Machine/Agents.lean ====
section
/-! DEFINITION. The agents' turns and which comes next (spec/10_state.md R20, spec/20_memory.md R70). -/

namespace Sys2Proof.Machine

/-- One event: one atomic step of one agent, or reset (R70). -/
def takeEvent (e : Event) (s : State) : Result :=
  match e with
  | .host a => busAccess a s
  | .engine => .next (engineTurn s)
  | .sink => .next (sinkTurn s)
  | .reset => .next s.applyReset

/-- The event that comes next, and the state once it is chosen: the schedule's first, or a free one (R70; log 4). -/
def nextEvent (s : State) : Event × State :=
  match s.sched with
  | e :: rest => (e, { s with sched := rest })
  | [] => (Config.freeEvent s.tick, { s with tick := s.tick + 1 })

/-- The next step of the whole: choose the event, take it. -/
def takeNext (s : State) : Result := takeEvent (nextEvent s).1 (nextEvent s).2

/-- The Host's next access is a write of the 32-bit word `w` to CMD (R90): bytes in the bus's order at BASE (R62, R63). -/
def State.withCommand (s : State) (w : Word) : State :=
  { s with sched := .host (.write s.params.base (bytesOfWord w)) :: s.sched }

end Sys2Proof.Machine
end

