-- ==== Sys2Proof/Machine/Step.lean ====
section
/-! DEFINITION. One step of the machine. -/

namespace Sys2Proof.Machine

/-- One atomic step of one agent (R70). -/
def step (s : State) : Host.Outcome State Fault Refusal := takeNext s

/-- `s` where the very next step is the Host's write of this word to CMD. The RBC fetches no instruction (R34, R77): a
command is data on a bus write, so this is how a program comes to run (log 4). -/
def State.withFetchWord (s : State) (nbits w : Nat) : State := s.withCommand (BitVec.ofNat 32 (w % 2 ^ nbits))

end Sys2Proof.Machine
end

