-- ==== Sys2Proof/Machine/Asm.lean ====
section
/-! DEFINITION. The assembler: statements and their words (spec/30_encoding.md R100), the pseudo-instructions and their
expansions (R101), and the text of one command per line (R100; details the spec does not give are a DESIGN CHOICE, log 9). -/

namespace Sys2Proof.Machine

/-- One assembler statement with its immediates as written: R100, and from `trywrite` on the pseudo-instructions of R101. -/
inductive AsmStmt where
  | nop
  | push (s : Int)
  | ingb (b : Int)
  | ingbLast (b : Int)
  | inge
  | advr (n : Int)
  | arm
  | trywrite (s : Int)
  | ingest (bs : List Int)
  | ingest16 (ss : List Int)
  deriving DecidableEq, Repr

/-- An immediate of `push`: in [-32768, 65535] (R100). -/
def sampleImmOk (s : Int) : Bool := decide (-32768 ≤ s) && decide (s ≤ 65535)

/-- An immediate of `ingb`: in [0, 255] (R100). -/
def byteImmOk (b : Int) : Bool := decide (0 ≤ b) && decide (b ≤ 255)

/-- An immediate of `advr`: in [0, 131071] (R100). -/
def countImmOk (n : Int) : Bool := decide (0 ≤ n) && decide (n ≤ 131071)

/-- The commands of one chunk: `inge` for no byte, else an `ingb` for each byte with LAST on the last (R101). -/
def chunkCommands : List Byte → List Instr
  | [] => [.inge]
  | [b] => [.ingb true b]
  | b :: c :: bs => .ingb false b :: chunkCommands (c :: bs)

/-- `lo(s), hi(s)`: a sample's bytes in the order the transport sends them (R101). -/
def bytesOfSample (s : Sample) : List Byte := [s.extractLsb' 0 8, s.extractLsb' 8 8]

/-- The bytes of samples, in order (R101). -/
def bytesOfSamples : List Sample → List Byte
  | [] => []
  | s :: ss => bytesOfSample s ++ bytesOfSamples ss

/-- The commands a statement stands for; none where an immediate is out of its range, an assembly error (R100, R101).
DESIGN CHOICE (log 9): R101 gives the samples of `ingest16` no range, and they have that of `push`'s immediate. -/
def AsmStmt.expand : AsmStmt → Option (List Instr)
  | .nop => some [.nop]
  | .push s => if sampleImmOk s then some [.push (BitVec.ofInt 16 s)] else none
  | .ingb b => if byteImmOk b then some [.ingb false (BitVec.ofInt 8 b)] else none
  | .ingbLast b => if byteImmOk b then some [.ingb true (BitVec.ofInt 8 b)] else none
  | .inge => some [.inge]
  | .advr n => if countImmOk n then some [.advr n.toNat] else none
  | .arm => some [.arm]
  | .trywrite s => if sampleImmOk s then some [.push (BitVec.ofInt 16 s)] else none
  | .ingest bs => if bs.all byteImmOk then some (chunkCommands (bs.map (BitVec.ofInt 8))) else none
  | .ingest16 ss =>
    if ss.all sampleImmOk && !ss.isEmpty then some (chunkCommands (bytesOfSamples (ss.map (BitVec.ofInt 16)))) else none

/-- The words a statement assembles to (R100, R101). -/
def AsmStmt.words (a : AsmStmt) : Option (List Word) := a.expand.map (List.map encode)

/-! ### Text -/

/-- White space inside a line (log 9). -/
def isBlank (c : Char) : Bool := c = ' ' || c = '\t' || c = '\r'

/-- A line without its comment (R100) and without white space around it (log 9). -/
def trimLine (cs : List Char) : List Char :=
  (((cs.takeWhile (· ≠ ';')).dropWhile isBlank).reverse.dropWhile isBlank).reverse

/-- The pieces between the separators. -/
def splitChar (sep : Char) : List Char → List (List Char)
  | [] => [[]]
  | c :: cs =>
    if c = sep then [] :: splitChar sep cs
    else
      match splitChar sep cs with
      | [] => [[c]]
      | w :: ws => (c :: w) :: ws

/-- The value of a digit in base 10 or 16. -/
def digitValue (base : Nat) (c : Char) : Option Nat :=
  let n := c.toNat
  let v := if 48 ≤ n ∧ n ≤ 57 then n - 48 else if 97 ≤ n ∧ n ≤ 102 then n - 87 else if 65 ≤ n ∧ n ≤ 70 then n - 55 else 99
  if v < base then some v else none

/-- A number's digits, after those that gave `acc`. -/
def parseDigits (base acc : Nat) : List Char → Option Nat
  | [] => some acc
  | c :: cs =>
    match digitValue base c with
    | some v => parseDigits base (acc * base + v) cs
    | none => none

/-- At least one digit. -/
def parseNumber (base : Nat) (cs : List Char) : Option Nat := if cs.isEmpty then none else parseDigits base 0 cs

/-- An immediate: decimal, with `-` before it where it is negative, or `0x` hexadecimal (R100). -/
def parseImm (cs : List Char) : Option Int :=
  match cs with
  | '-' :: ds => (parseNumber 10 ds).map fun n => -(n : Int)
  | '0' :: 'x' :: ds => (parseNumber 16 ds).map fun n => (n : Int)
  | ds => (parseNumber 10 ds).map fun n => (n : Int)

/-- A list of immediates, each trimmed. -/
def parseImms : List (List Char) → Option (List Int)
  | [] => some []
  | w :: ws =>
    match parseImm (trimLine w), parseImms ws with
    | some v, some vs => some (v :: vs)
    | _, _ => none

/-- The operands after a mnemonic: none, or immediates with commas between them (R101). -/
def parseOperands (cs : List Char) : Option (List Int) :=
  if (trimLine cs).isEmpty then some [] else parseImms (splitChar ',' cs)

/-- The statement of a mnemonic with its operands; none where there is no such statement (R100, R101). -/
def stmtOf (m : List Char) (ops : List Int) : Option AsmStmt :=
  match ops with
  | [] =>
    if m = ['n', 'o', 'p'] then some .nop
    else if m = ['i', 'n', 'g', 'e'] then some .inge
    else if m = ['a', 'r', 'm'] then some .arm
    else if m = ['i', 'n', 'g', 'e', 's', 't'] then some (.ingest [])
    else none
  | v :: vs =>
    if m = ['i', 'n', 'g', 'e', 's', 't'] then some (.ingest (v :: vs))
    else if m = ['i', 'n', 'g', 'e', 's', 't', '1', '6'] then some (.ingest16 (v :: vs))
    else if vs ≠ [] then none
    else if m = ['p', 'u', 's', 'h'] then some (.push v)
    else if m = ['i', 'n', 'g', 'b'] then some (.ingb v)
    else if m = ['i', 'n', 'g', 'b', '.', 'l', 'a', 's', 't'] then some (.ingbLast v)
    else if m = ['a', 'd', 'v', 'r'] then some (.advr v)
    else if m = ['t', 'r', 'y', 'w', 'r', 'i', 't', 'e'] then some (.trywrite v)
    else none

/-- The words of one line of text: none of them for a line with nothing but a comment (R100); `none` is an assembly error. -/
def assembleLine (cs : List Char) : Option (List Word) :=
  let l := trimLine cs
  if l.isEmpty then some []
  else
    match parseOperands (l.dropWhile (fun c => !isBlank c)) with
    | none => none
    | some ops => (stmtOf (l.takeWhile (fun c => !isBlank c)) ops).bind AsmStmt.words

/-- The words of lines, in order. -/
def assembleLines : List (List Char) → Option (List Word)
  | [] => some []
  | l :: ls =>
    match assembleLine l, assembleLines ls with
    | some ws, some rest => some (ws ++ rest)
    | _, _ => none

/-- The words of a text, one command per line (R100). -/
def assembleText (cs : List Char) : Option (List Word) := assembleLines (splitChar '\n' cs)

end Sys2Proof.Machine
end

