-- ==== Sys2Proof/Safety.lean ====
section
/-! DEFINITION. The terms statements use: the invariant every reachable state meets (spec/10_state.md R36), runs of commands
and of events, and fairness (spec/70_reset_and_hazards.md R266). -/

namespace Sys2Proof.Machine

/-- R36, first line: each cursor and the source offset is below CAP. -/
abbrev CursorsInRange (s : State) : Prop :=
  s.wcur.toNat < s.params.cap ∧ s.rcur.toNat < s.params.cap ∧ s.xsrc.toNat < s.params.cap

/-- R36: what the StreamingState holds in each PHASE. -/
abbrev TransferOk (s : State) : Prop :=
  (s.xlen = 0 ∨ s.xlen = capCount s.params) ∧ s.xcnt.toNat ≤ s.xlen.toNat ∧
  (s.phase = .idle → s.xlen = 0 ∧ s.xcnt = 0 ∧ s.xsrc = 0) ∧
  (s.phase = .armed → s.xlen = capCount s.params ∧ s.xcnt.toNat < s.params.cap) ∧
  (s.phase = .cAck ∨ s.phase = .cAdv ∨ s.phase = .cRearm →
    s.xlen = capCount s.params ∧ s.xcnt = capCount s.params) ∧
  (s.phase ≠ .idle → s.xsrc = s.rcur)

/-- R36: nothing is left in PENDLO when no byte is pending, nor in LPOK before the first tryWrite. -/
abbrev DecoderOk (s : State) : Prop := (s.pendb = false → s.pendlo = 0) ∧ (s.lpv = false → s.lpok = false)

/-- R36: `length(SFIFO) <= SINK_DEPTH`. -/
abbrev SinkOk (s : State) : Prop := s.sfifo.length ≤ s.params.sinkDepth

/-- The invariant of R36, and the canonical form of the storage. -/
abbrev Inv (s : State) : Prop :=
  CursorsInRange s ∧ TransferOk s ∧ DecoderOk s ∧ SinkOk s ∧ Memory.wf s.params.cap s.stor = true

/-- Commands one after the other, with nothing between them. -/
def execAll : List Instr → State → Result
  | [], s => .next s
  | i :: is, s => andThen (exec i s) (execAll is)

/-- Events one after the other. -/
def takeEvents : List Event → State → Result
  | [], s => .next s
  | e :: es, s => andThen (takeEvent e s) (takeEvents es)

/-- The first `n` events of an endless schedule. -/
def play (σ : Nat → Event) : Nat → State → Result
  | 0, s => .next s
  | n + 1, s => andThen (play σ n s) (takeEvent (σ n))

/-- The command word an event writes to CMD, where it is the Host's well-formed write of one (R63, R90). -/
def commandOf (p : Params) : Event → Option Word
  | .host (.write addr bytes) =>
    if accessOk p addr bytes.length && addr - p.base == 0 then some (wordOfBytes bytes) else none
  | .host (.read _ _) => none
  | .engine => none
  | .sink => none
  | .reset => none

/-- The command words the Host writes among these events, in order. -/
def commandWords (p : Params) (es : List Event) : List Word := es.filterMap (commandOf p)

/-- Weak fairness of one agent in the run of `σ` from `s` (R266): where its step is enabled from event `n` on, it has a
turn at `n` or later. Its step is taken at a turn at which it is enabled. -/
def WeaklyFair (σ : Nat → Event) (s : State) (e : Event) (enabled : State → Bool) : Prop :=
  ∀ n, (∀ m t, n ≤ m → play σ m s = .next t → enabled t = true) → ∃ m, n ≤ m ∧ σ m = e

/-- The first reserved bit of an opcode's format, whose reserved bits run up to bit 27 (R92); none for an unassigned
opcode. -/
def reservedFrom : Nat → Option Nat
  | 0 => some 0
  | 1 => some 16
  | 2 => some 9
  | 3 => some 0
  | 4 => some 17
  | 5 => some 0
  | _ => none

/-- One whole lap at the Engine's and the Sink's pace: `k` times a FETCH and then a CONSUME. -/
def fetchConsume : Nat → List Event
  | 0 => []
  | k + 1 => .engine :: .sink :: fetchConsume k

/-- The first `k` words from the transfer armed in `s` on, its storage as it is: word `j` is the sample of slot
`(XSRC + j) mod CAP` on both channels (R172, R177); beyond CAP words they are those of the laps after it (R183). -/
def lapWords (s : State) (k : Nat) : List Word :=
  (List.range k).map fun j => sinkWord (s.slot ((s.xsrc.toNat + j) % s.params.cap))

/-- The samples of a chunk's bytes: the pairs, low byte first, and no sample of an odd last byte (R153). -/
def chunkSamples : List Byte → List Sample
  | lo :: hi :: bs => sampleOf hi lo :: chunkSamples bs
  | _ => []

end Sys2Proof.Machine
end

