-- ==== Sys2Proof/Certificates/Slice0/Obligations.lean ====
section
/-! DEFINITION. What is to be proved of this model: the spec's numbered rules, stated of the machine. A frame is written as an
equation: the next state with the fields the rule writes put back is the state before, so every other field is unchanged. -/

open Sys2Proof Sys2Proof.Machine

/-! ### Encoding -/

/-- Decoding an instruction's word gives the instruction back, every operand at every value (R92 to R94, R99). -/
def Obligations.DecodeOfEncodeIsIdentity : Prop :=
  ∀ i : Instr, i.wf = true → decode (encode i) = .cmd i

/-- Each command word has one meaning: a word that decodes to an instruction is that instruction's word (R91, R94, R99). -/
def Obligations.EncodeOfDecodeIsIdentity : Prop :=
  ∀ (w : Word) (i : Instr), decode w = .cmd i → i.wf = true ∧ encode i = w

/-- R95: a word is ill-formed when its opcode is unassigned or one of its format's reserved bits is 1, and every ill-formed
word sets BADCMD, changes nothing else and never traps. -/
def Obligations.IllFormedWordsSetBadcmd : Prop :=
  ∀ w : Word,
    (decode w = .ill ↔
      match reservedFrom (w.extractLsb' 28 4).toNat with
      | none => True
      | some lo => ∃ k, lo ≤ k ∧ k < 28 ∧ w.getLsbD k = true) ∧
    (decode w = .ill → ∀ s : State, runCommand w s = .next { s with badcmd := true })

/-- R94: `w` selects an instruction's row, `(w AND mask) == match`, exactly when the decoder reads an instruction of that row;
exactly one row or none matches. -/
def Obligations.OpcodeMapSelectsOneRow : Prop :=
  ∀ (w : Word) (i : Instr),
    (w &&& rowMask i = rowMatch i ↔ ∃ j, decode w = .cmd j ∧ rowMatch j = rowMatch i) ∧
    (∀ j : Instr, w &&& rowMask i = rowMatch i → w &&& rowMask j = rowMatch j → rowMatch i = rowMatch j)

/-- Words of spec/95_test_vectors.md, one or more for each instruction, decode as it says. -/
def Obligations.SpecWordsDecode : Prop :=
  decode 0x00000000 = .cmd .nop ∧ decode 0x10008000 = .cmd (.push 0x8000) ∧
  decode 0x200001FF = .cmd (.ingb true 0xFF) ∧ decode 0x200000FF = .cmd (.ingb false 0xFF) ∧
  decode 0x30000000 = .cmd .inge ∧ decode 0x4001FFFF = .cmd (.advr 131071) ∧ decode 0x50000000 = .cmd .arm ∧
  decode 0x10010000 = .ill ∧ decode 0x40020000 = .ill ∧ decode 0x60000000 = .ill

/-- The words of the assembler's syntax (R100), and an immediate outside its range is an assembly error. -/
def Obligations.AssemblerWords : Prop :=
  AsmStmt.nop.words = some [0x00000000] ∧ AsmStmt.inge.words = some [0x30000000] ∧
  AsmStmt.arm.words = some [0x50000000] ∧
  ∀ v : Int,
    (AsmStmt.push v).words =
      (if -32768 ≤ v ∧ v ≤ 65535 then some [0x10000000 ||| (BitVec.ofInt 32 v &&& 0xFFFF)] else none) ∧
    (AsmStmt.ingb v).words = (if 0 ≤ v ∧ v ≤ 255 then some [0x20000000 ||| BitVec.ofInt 32 v] else none) ∧
    (AsmStmt.ingbLast v).words = (if 0 ≤ v ∧ v ≤ 255 then some [0x20000100 ||| BitVec.ofInt 32 v] else none) ∧
    (AsmStmt.advr v).words = (if 0 ≤ v ∧ v ≤ 131071 then some [0x40000000 ||| BitVec.ofInt 32 v] else none)

/-- R101: what each pseudo-instruction expands to. `v % 256` and `v / 256 % 256` are `v AND 0xFF` and `(v >> 8) AND 0xFF`. -/
def Obligations.PseudoInstructionsExpand : Prop :=
  (∀ v, (AsmStmt.trywrite v).expand = (AsmStmt.push v).expand) ∧
  (AsmStmt.ingest []).expand = some [.inge] ∧
  (∀ (bs : List Int) (b : Int), (∀ v ∈ bs ++ [b], 0 ≤ v ∧ v ≤ 255) →
    (AsmStmt.ingest (bs ++ [b])).expand =
      some (bs.map (fun v => .ingb false (BitVec.ofInt 8 v)) ++ [.ingb true (BitVec.ofInt 8 b)])) ∧
  (∀ ss : List Int, ss ≠ [] → (∀ v ∈ ss, -32768 ≤ v ∧ v ≤ 65535) →
    (AsmStmt.ingest16 ss).expand = (AsmStmt.ingest (ss.flatMap fun v => [v % 256, v / 256 % 256])).expand)

/-! ### Steps -/

/-- One step takes the schedule's next event, and a free one where the schedule is empty (R70; the schedule is the model's
choice, log 4). -/
def Obligations.StepTakesNextEvent : Prop :=
  ∀ s : State,
    (∀ e rest, s.sched = e :: rest → step s = takeEvent e { s with sched := rest }) ∧
    (s.sched = [] → step s = takeEvent (Config.freeEvent s.tick) { s with tick := s.tick + 1 })

/-- R90: where the next event is the Host's write of a word to CMD, the step decodes the word and executes exactly that
command; an ill-formed word sets BADCMD. The word is the four bytes in the bus's order. -/
def Obligations.StepRunsDecodedCommand : Prop :=
  ∀ (s : State) (b0 b1 b2 b3 : Byte) (rest : List Event),
    s.sched = .host (.write s.params.base [b0, b1, b2, b3]) :: rest →
    (∀ i, decode (b3 ++ b2 ++ b1 ++ b0) = .cmd i → step s = exec i { s with sched := rest }) ∧
    (decode (b3 ++ b2 ++ b1 ++ b0) = .ill → step s = .next { s with sched := rest, badcmd := true })

/-- A word placed where the next step takes its command from runs at that step (log 4): step is exec of what the decoder
reads from it, at the very same state. -/
def Obligations.PlacedWordRunsNext : Prop :=
  ∀ (s : State) (nbits w : Nat) (i : Instr),
    decodeTableWord nbits w = some i → step (s.withFetchWord nbits w) = exec i s

/-- Every step keeps the parameters: CAP never changes while the block runs (R21), and no agent's step (R20) or reset (R260)
writes a parameter of R6; that they stand in State is the model's choice (log 1). -/
def Obligations.StepKeepsParameters : Prop :=
  ∀ s t : State, step s = .next t → t.params = s.params

/-! ### Ring buffer -/

/-- R13: what EMPTY, FULL, COUNT and FREE are; for cursors in their range FULL is COUNT = CAP - 1, that is FREE = 0, and
EMPTY is COUNT = 0. -/
def Obligations.BufferPredicatesAgree : Prop :=
  ∀ s : State,
    (s.isEmpty = true ↔ s.wcur.toNat = s.rcur.toNat) ∧
    (s.isFull = true ↔ (s.wcur.toNat + 1) % s.params.cap = s.rcur.toNat) ∧
    (s.count : Int) = ((s.wcur.toNat : Int) - (s.rcur.toNat : Int)) % (s.params.cap : Int) ∧
    s.free = s.params.cap - 1 - s.count ∧
    (s.wcur.toNat < s.params.cap → s.rcur.toNat < s.params.cap →
      (s.isFull = true ↔ s.count = s.params.cap - 1) ∧ (s.isFull = true ↔ s.free = 0) ∧
      (s.isEmpty = true ↔ s.count = 0))

/-- R8: for CAP a power of two the cursor computation is the one with AND. -/
def Obligations.PowerOfTwoCapacityUsesAnd : Prop :=
  ∀ (p : Params) (k : Nat), p.cap = 2 ^ k → ∀ (x : Cursor) (n : Nat),
    (wrapAdd p.cap x n).toNat = (x.toNat + n) &&& (p.cap - 1)

/-- A slot write is read back, leaves every other slot, keeps the storage's canonical form, and faults exactly where there
is no such slot (R21, R61; the fault is the model's own, log 6). -/
def Obligations.StorageReadAfterWrite : Prop :=
  ∀ (s : State) (i : Nat) (v : Sample),
    (i < s.params.cap → ∃ t, s.writeSlot i v = .next t ∧ t.slot i = v ∧ (∀ a, a ≠ i → t.slot a = s.slot a) ∧
      (s.stor.wf s.params.cap = true → t.stor.wf t.params.cap = true) ∧ { t with stor := s.stor } = s) ∧
    (s.params.cap ≤ i → s.writeSlot i v = .fault .slotOutOfRange)

/-- R121: PUSH. FULL drops the sample and changes LPV and LPOK alone; else the sample is in the slot at WCUR, every other
slot is as before, WCUR is one on modulo CAP, LPV = LPOK = 1, EMPTY, COUNT and FULL follow, and nothing else changes. -/
def Obligations.PushWritesOrDrops : Prop :=
  ∀ (x : Sample) (s : State), s.wcur.toNat < s.params.cap →
    ∃ t, exec (.push x) s = .next t ∧
      if (s.wcur.toNat + 1) % s.params.cap = s.rcur.toNat then t = { s with lpv := true, lpok := false }
      else
        t.slot s.wcur.toNat = x ∧ (∀ a, a ≠ s.wcur.toNat → t.slot a = s.slot a) ∧
        t.wcur.toNat = (s.wcur.toNat + 1) % s.params.cap ∧ t.lpv = true ∧ t.lpok = true ∧
        { t with stor := s.stor, wcur := s.wcur, lpv := s.lpv, lpok := s.lpok } = s ∧
        (s.rcur.toNat < s.params.cap →
          t.isEmpty = false ∧ t.count = s.count + 1 ∧ (t.isFull = true ↔ s.count + 1 = s.params.cap - 1))

/-- R127: a PUSH never overwrites a sample the buffer holds: slots RCUR to RCUR + COUNT - 1 modulo CAP are as before, and
where the buffer is FULL it is the new sample that is lost: no slot changes. -/
def Obligations.PushKeepsStoredSamples : Prop :=
  ∀ (x : Sample) (s : State), s.wcur.toNat < s.params.cap → s.rcur.toNat < s.params.cap →
    ∃ t, exec (.push x) s = .next t ∧
      (∀ j, j < s.count → t.slot ((s.rcur.toNat + j) % s.params.cap) = s.slot ((s.rcur.toNat + j) % s.params.cap)) ∧
      (s.isFull = true → ∀ a, t.slot a = s.slot a)

/-- R122, R123: ADVR moves RCUR by N modulo CAP in IDLE, exactly and with no check against WCUR; outside IDLE it sets BADCMD
and changes nothing else. -/
def Obligations.AdvrMovesReadCursor : Prop :=
  ∀ (n : Nat) (s : State),
    ∃ t, exec (.advr n) s = .next t ∧
      if s.phase = .idle then
        t.rcur.toNat = (s.rcur.toNat + n) % s.params.cap ∧ { t with rcur := s.rcur } = s
      else t = { s with badcmd := true }

/-- R125: COUNT and FREE after ADVR(N) in IDLE, and the three cases of how many slots it frees. -/
def Obligations.AdvanceFreesSlots : Prop :=
  ∀ (n : Nat) (s : State), s.phase = .idle → s.wcur.toNat < s.params.cap → s.rcur.toNat < s.params.cap →
    ∃ t, exec (.advr n) s = .next t ∧
      (t.count : Int) = ((s.count : Int) - (n : Int)) % (s.params.cap : Int) ∧
      t.free = s.params.cap - 1 - t.count ∧
      (n ≤ s.count → t.free = s.free + n) ∧
      (n = s.params.cap → t.free = s.free) ∧
      (s.count < n → n < s.params.cap → t.free = n - s.count - 1)

/-- R124: from EMPTY, CAP - 1 pushes succeed one after the other, the buffer is then FULL, and every further push fails. -/
def Obligations.EmptyBufferTakesCapMinusOne : Prop :=
  ∀ (xs : List Sample) (s : State), s.wcur.toNat < s.params.cap → s.rcur.toNat < s.params.cap → s.isEmpty = true →
    xs.length = s.params.cap - 1 →
    (∀ k, 0 < k → k ≤ xs.length →
      ∃ t, execAll ((xs.take k).map .push) s = .next t ∧ t.lpok = true ∧ t.count = k) ∧
    (∃ t, execAll (xs.map .push) s = .next t ∧ t.isFull = true ∧
      ∀ ys : List Sample, ys ≠ [] → execAll (ys.map .push) t = .next { t with lpok := false })

/-- R128: pushes that find room fill consecutive slots from WCUR in order, and touch no other slot. -/
def Obligations.PushesFillConsecutiveSlots : Prop :=
  ∀ (xs : List Sample) (s : State), s.wcur.toNat < s.params.cap → s.rcur.toNat < s.params.cap →
    xs.length ≤ s.free →
    ∃ t, execAll (xs.map .push) s = .next t ∧
      (∀ (j : Nat) (h : j < xs.length), t.slot ((s.wcur.toNat + j) % s.params.cap) = xs[j]) ∧
      (∀ a, (∀ j, j < xs.length → a ≠ (s.wcur.toNat + j) % s.params.cap) → t.slot a = s.slot a) ∧
      t.wcur.toNat = (s.wcur.toNat + xs.length) % s.params.cap ∧ t.rcur = s.rcur

/-! ### Sample Ingest -/

/-- R151: INGB. A first byte becomes the pending byte, unless it ends its chunk: then it leaves no trace. A second byte
clears the decoder and hands `{BYTE, PENDLO}` to TryWrite, whatever LAST is. -/
def Obligations.IngbTakesOneByte : Prop :=
  ∀ (last : Bool) (b : Byte) (s : State),
    (s.pendb = false → last = false → exec (.ingb last b) s = .next { s with pendb := true, pendlo := b }) ∧
    (s.pendb = false → last = true → exec (.ingb last b) s = .next s) ∧
    (s.pendb = true → s.wcur.toNat < s.params.cap →
      ∃ t, exec (.ingb last b) s = .next t ∧
        exec (.push (b ++ s.pendlo)) { s with pendb := false, pendlo := 0 } = .next t ∧
        t.pendb = false ∧ t.pendlo = 0 ∧ (∀ a, a ≠ s.wcur.toNat → t.slot a = s.slot a))

/-- R152: INGE discards a pending byte and changes nothing else. -/
def Obligations.IngeDiscardsPendingByte : Prop :=
  ∀ s : State, exec .inge s = .next { s with pendb := false, pendlo := 0 }

/-- R153: a chunk of any length, its commands one after the other, sent from a decoder with nothing pending, calls TryWrite `floor(k / 2)` times in order with
the samples `{b(2j+1), b(2j)}`, discards an odd last byte, and leaves nothing pending. -/
def Obligations.ChunkWritesItsSamples : Prop :=
  ∀ (bs : List Byte) (s : State), s.pendb = false → s.pendlo = 0 →
    execAll (chunkCommands bs) s = execAll ((chunkSamples bs).map .push) s ∧
    (chunkSamples bs).length = bs.length / 2 ∧
    (∀ j, j < bs.length / 2 → (chunkSamples bs)[j]? = some (bs.getD (2 * j + 1) 0 ++ bs.getD (2 * j) 0)) ∧
    (∀ t, execAll (chunkCommands bs) s = .next t → t.pendb = false ∧ t.pendlo = 0)

/-- R153 with anything but a further command or reset between the chunk's commands: register reads, other accesses, the
Engine and the Sink. Before each event `k` of the chunk's commands have run. The commands with odd `k` call TryWrite with
`{b(k), b(k-1)}` on a cleared decoder; those with even `k` keep `b(k)`, or discard it where it is the last byte; nothing
else writes storage, WCUR, LPV, LPOK or the decoder; and nothing is left pending at the end. -/
def Obligations.InterleavedChunkWritesItsSamples : Prop :=
  ∀ (bs : List Byte) (es : List Event) (s : State), s.pendb = false → s.pendlo = 0 → s.wcur.toNat < s.params.cap →
    (∀ e ∈ es, e ≠ .reset) → commandWords s.params es = (chunkCommands bs).map encode →
    (∃ t, takeEvents es s = .next t ∧ t.pendb = false ∧ t.pendlo = 0) ∧
    ∀ (pre post : List Event) (e : Event) (u : State), es = pre ++ e :: post → takeEvents pre s = .next u →
      let k := (commandWords s.params pre).length
      if commandOf s.params e = none then
        ∃ t, takeEvent e u = .next t ∧ t.pendb = u.pendb ∧ t.pendlo = u.pendlo ∧ t.wcur = u.wcur ∧ t.lpv = u.lpv ∧
          t.lpok = u.lpok ∧ ∀ a, t.slot a = u.slot a
      else if k % 2 = 1 then
        takeEvent e u = exec (.push (bs.getD k 0 ++ bs.getD (k - 1) 0)) { u with pendb := false, pendlo := 0 }
      else if k + 1 < bs.length then takeEvent e u = .next { u with pendb := true, pendlo := bs.getD k 0 }
      else takeEvent e u = .next u

/-- R154: of five bytes two samples are made and the fifth byte is discarded, not carried on. -/
def Obligations.FiveBytesMakeTwoSamples : Prop :=
  ∀ (b0 b1 b2 b3 b4 : Byte) (s : State), s.pendb = false → s.pendlo = 0 →
    execAll (chunkCommands [b0, b1, b2, b3, b4]) s = execAll [.push (b1 ++ b0), .push (b3 ++ b2)] s

/-- R156: a stored pattern `{hi, lo}` stands for `uint({hi, lo}) - 65536 * hi[7]`. -/
def Obligations.SampleAsAudio : Prop :=
  ∀ hi lo : Byte,
    audioValue (sampleOf hi lo) = ((hi.toNat * 256 + lo.toNat : Nat) : Int) - 65536 * (hi.getLsbD 7).toNat

/-! ### Control -/

/-- R210: NOP leaves every state element unchanged. -/
def Obligations.NopLeavesEverything : Prop :=
  ∀ s : State, exec .nop s = .next s

/-- The commands that store no sample (NOP, INGE, ADVR, ARM, R210, R152, R122, R171) leave every slot as it was. -/
def Obligations.CommandsThatStoreNothing : Prop :=
  ∀ (i : Instr) (s : State), (i = .nop ∨ i = .inge ∨ (∃ n, i = .advr n) ∨ i = .arm) →
    ∃ t, exec i s = .next t ∧ (∀ a, t.slot a = s.slot a) ∧ t.wcur = s.wcur ∧ t.lpv = s.lpv ∧ t.lpok = s.lpok

/-- R30: BADCMD is sticky: no step but reset clears it. -/
def Obligations.BadcmdIsSticky : Prop :=
  ∀ (e : Event) (s t : State), e ≠ .reset → takeEvent e s = .next t → s.badcmd = true → t.badcmd = true

/-- R232: a word is refused exactly where it is ill-formed, or is ARM or ADVR outside IDLE; then BADCMD is set and nothing
else changes. Every other word executes the command it decodes to and leaves BADCMD as it was. -/
def Obligations.CommandExecutesOrIsRefused : Prop :=
  ∀ (w : Word) (s : State),
    let refused := decode w = .ill ∨ (s.phase ≠ .idle ∧ (decode w = .cmd .arm ∨ ∃ n, decode w = .cmd (.advr n)))
    (refused → runCommand w s = .next { s with badcmd := true }) ∧
    (¬refused → ∃ i, decode w = .cmd i ∧ runCommand w s = exec i s ∧
      ∀ t, runCommand w s = .next t → t.badcmd = s.badcmd) ∧
    (s.badcmd = false → ∀ t, runCommand w s = .next t → (t.badcmd = true ↔ refused))

/-! ### Streaming Engine and sink -/

/-- R171: ARM in IDLE arms a transfer of CAP words from RCUR; outside IDLE it sets BADCMD and changes nothing else. -/
def Obligations.ArmStartsFullLap : Prop :=
  ∀ s : State,
    ∃ t, exec .arm s = .next t ∧
      if s.phase = .idle then
        t.xsrc = s.rcur ∧ t.xlen.toNat = s.params.cap ∧ t.xcnt = 0 ∧ t.phase = .armed ∧
        { t with xsrc := s.xsrc, xlen := s.xlen, xcnt := s.xcnt, phase := s.phase } = s
      else t = { s with badcmd := true }

/-- R176, R175, R177: FETCH, where it is enabled, pushes the word with slot `(XSRC + XCNT) mod CAP`'s sample in both halves,
counts it, raises the completion signal with the transfer's last word, and changes nothing else. -/
def Obligations.FetchSendsOneWord : Prop :=
  ∀ s : State, s.phase = .armed → s.xcnt.toNat < s.xlen.toNat → s.sfifo.length < s.params.sinkDepth →
    ∃ w t, takeEvent .engine s = .next t ∧ t.sfifo = s.sfifo ++ [w] ∧
      w.extractLsb' 16 16 = s.slot ((s.xsrc.toNat + s.xcnt.toNat) % s.params.cap) ∧
      w.extractLsb' 0 16 = s.slot ((s.xsrc.toNat + s.xcnt.toNat) % s.params.cap) ∧
      t.xcnt.toNat = s.xcnt.toNat + 1 ∧
      t.phase = (if s.xcnt.toNat + 1 = s.xlen.toNat then .cAck else .armed) ∧
      { t with sfifo := s.sfifo, xcnt := s.xcnt, phase := s.phase } = s

/-- R174: in ARMED the Engine waits while the sink FIFO is full, and changes nothing. -/
def Obligations.EngineWaitsForRoom : Prop :=
  ∀ s : State, s.phase = .armed → s.params.sinkDepth ≤ s.sfifo.length → takeEvent .engine s = .next s

/-- R173: over the CAP values XCNT takes in one transfer, FETCH reads every slot exactly once. -/
def Obligations.LapReadsEverySlotOnce : Prop :=
  ∀ (s : State) (i : Nat), i < s.params.cap →
    ∃ j, (j < s.params.cap ∧ fetchIndex (s.setXcnt (BitVec.ofNat 17 j)) = i) ∧
      ∀ k, k < s.params.cap → fetchIndex (s.setXcnt (BitVec.ofNat 17 k)) = i → k = j

/-- R178, R179, R180: what ACK, ADV and REARM do and leave; ADV leaves RCUR's value for a full lap. -/
def Obligations.HandlerStepsDoTheirWork : Prop :=
  ∀ s : State,
    (s.phase = .cAck → takeEvent .engine s = .next { s with phase := .cAdv }) ∧
    (s.phase = .cAdv → ∃ t, takeEvent .engine s = .next t ∧
      t.rcur.toNat = (s.rcur.toNat + s.xlen.toNat) % s.params.cap ∧ t.phase = .cRearm ∧
      { t with rcur := s.rcur, phase := s.phase } = s ∧
      (s.rcur.toNat < s.params.cap → s.xlen.toNat = s.params.cap → t.rcur = s.rcur)) ∧
    (s.phase = .cRearm → ∃ t, takeEvent .engine s = .next t ∧
      t.xsrc = s.rcur ∧ t.xlen.toNat = s.params.cap ∧ t.xcnt = 0 ∧ t.phase = .armed ∧
      { t with xsrc := s.xsrc, xlen := s.xlen, xcnt := s.xcnt, phase := s.phase } = s)

/-- R182, R183: once the completion signal is raised the Engine's next three turns are ACK, ADV and REARM in that order,
whatever the Host and the Sink do between them, and the new transfer has length CAP and starts at the RCUR of before. -/
def Obligations.RearmAfterCompletion : Prop :=
  ∀ (s : State) (h1 h2 h3 : List Event), Inv s → s.phase = .cAck →
    (∀ e ∈ h1 ++ h2 ++ h3, e ≠ .engine ∧ e ≠ .reset) →
    ∃ u v t, takeEvents (h1 ++ [.engine]) s = .next u ∧ u.phase = .cAdv ∧
      takeEvents (h2 ++ [.engine]) u = .next v ∧ v.phase = .cRearm ∧
      takeEvents (h3 ++ [.engine]) v = .next t ∧ t.phase = .armed ∧
      t.xlen.toNat = s.params.cap ∧ t.xsrc = s.rcur ∧ t.rcur = s.rcur ∧ t.xcnt = 0

/-- R170: the only phase changes are those of the table, each by its agent and under its condition, and the Engine does
nothing in IDLE. -/
def Obligations.PhaseTransitions : Prop :=
  ∀ (e : Event) (s t : State), takeEvent e s = .next t →
    (t.phase = s.phase ∨
      (s.phase = .idle ∧ t.phase = .armed ∧
        ∃ bytes, e = .host (.write s.params.base bytes) ∧ decode (wordOfBytes bytes) = .cmd .arm) ∨
      (s.phase = .armed ∧ t.phase = .cAck ∧ e = .engine ∧ s.xcnt.toNat + 1 = s.xlen.toNat) ∨
      (s.phase = .cAck ∧ t.phase = .cAdv ∧ e = .engine) ∨
      (s.phase = .cAdv ∧ t.phase = .cRearm ∧ e = .engine) ∨
      (s.phase = .cRearm ∧ t.phase = .armed ∧ e = .engine) ∨
      (t.phase = .idle ∧ e = .reset)) ∧
    (e = .engine → s.phase = .idle → t = s)

/-- R235: in every state at most one Engine step is enabled, and the Engine's turn takes it. -/
def Obligations.OneEngineStepEnabled : Prop :=
  ∀ s : State,
    (∀ d e : EngineStep, d.enabled s = true → e.enabled s = true → d = e) ∧
    (∀ e : EngineStep, e.enabled s = true → takeEvent .engine s = .next (e.run s)) ∧
    ((∀ e : EngineStep, e.enabled s = false) → takeEvent .engine s = .next s)

/-- R189: the Engine never reads WCUR: its turn from a state with another WCUR does the same. -/
def Obligations.EngineIgnoresWriteCursor : Prop :=
  ∀ (s : State) (c : Cursor), engineTurn (s.setWcur c) = (engineTurn s).setWcur c

/-- R181: CONSUME moves the oldest word of SFIFO to the end of OUT and changes nothing else; with SFIFO empty the Sink has
no step. -/
def Obligations.ConsumePlaysOldestWord : Prop :=
  ∀ s : State,
    (∀ w rest, s.sfifo = w :: rest → takeEvent .sink s = .next { s with sfifo := rest, out := s.out ++ [w] }) ∧
    (s.sfifo = [] → takeEvent .sink s = .next s)

/-- R68: no word is lost, duplicated or reordered between FETCH and CONSUME: played and waiting words together only grow at
the end, by one word, at an Engine turn with room in the FIFO; what has been played stays. -/
def Obligations.SinkStreamIsFifo : Prop :=
  ∀ (e : Event) (s t : State), takeEvent e s = .next t →
    s.out <+: t.out ∧
    (t.out ++ t.sfifo = s.out ++ s.sfifo ∨
      (e = .engine ∧ s.sfifo.length < s.params.sinkDepth ∧ ∃ w, t.out ++ t.sfifo = s.out ++ s.sfifo ++ [w]))

/-- R172: from a newly armed transfer, under every schedule of the Engine, the Sink and Host accesses that are no commands,
the words sent are those of slots `(XSRC + j) mod CAP` for j = 0, 1, ... with completion after each CAP of them; words that
waited before come first. And a lap does end: at the Sink's pace from an empty FIFO, CAP words are played and the
completion signal is up. -/
def Obligations.FullLapPlaysRing : Prop :=
  ∀ s : State, Inv s → s.phase = .armed → s.xcnt = 0 →
    (∀ es : List Event, (∀ e ∈ es, e ≠ .reset ∧ commandOf s.params e = none) →
      ∃ (n : Nat) (t : State), takeEvents es s = .next t ∧ t.out ++ t.sfifo = s.out ++ s.sfifo ++ lapWords s n ∧
        (t.phase = .armed → t.xcnt.toNat = n % s.params.cap) ∧
        (t.phase ≠ .armed → 0 < n ∧ n % s.params.cap = 0)) ∧
    (s.sfifo = [] →
      ∃ t, takeEvents (fetchConsume s.params.cap) s = .next t ∧ t.out = s.out ++ lapWords s s.params.cap ∧
        t.sfifo = [] ∧ t.phase = .cAck)

/-- R188: samples pushed into an empty buffer and then armed, by events `es` whose commands these are, are sent and played
unchanged and in order: after any further events `fs` but reset, the Host's commands among them, the words sent from this
lap on, `ws`, come after every word sent before and begin with the samples' words, as far as they have got; and from any
such point the Engine and the Sink can get all of them played. -/
def Obligations.RoundTripPlaysSamplesInOrder : Prop :=
  ∀ (xs : List Sample) (es fs : List Event) (s : State), Inv s → s.phase = .idle → s.isEmpty = true →
    xs.length ≤ s.params.cap - 1 → (∀ e ∈ es ++ fs, e ≠ .reset) →
    commandWords s.params es = (xs.map Instr.push ++ [Instr.arm]).map encode →
    ∃ (u : State) (ws : List Word), takeEvents (es ++ fs) s = .next u ∧ u.out ++ u.sfifo = s.out ++ s.sfifo ++ ws ∧
      ws.take xs.length = (xs.take ws.length).map (fun x => x ++ x) ∧
      (ws.length ≤ xs.length → u.xcnt.toNat = ws.length) ∧
      ∃ (gs : List Event) (v : State) (rest : List Word), (∀ e ∈ gs, e = .engine ∨ e = .sink) ∧
        takeEvents gs u = .next v ∧ v.out = s.out ++ s.sfifo ++ xs.map (fun x => x ++ x) ++ rest

/-- R184: after ARM and until reset, under every schedule and every Host: RCUR keeps its value, COUNT never falls, and once
the buffer is FULL it stays FULL with WCUR and every slot as they are, so every further sample is dropped. -/
def Obligations.ReadCursorFixedAfterArm : Prop :=
  ∀ (es : List Event) (s t : State), Inv s → s.phase ≠ .idle → (∀ e ∈ es, e ≠ .reset) →
    takeEvents es s = .next t →
    t.rcur = s.rcur ∧ t.phase ≠ .idle ∧ s.count ≤ t.count ∧
    (s.isFull = true → t.isFull = true ∧ t.wcur = s.wcur ∧ ∀ a, t.slot a = s.slot a)

/-- R74: where a PUSH and a FETCH of the same slot compete, the FETCH sends the new sample if it comes second and the old
content if it comes first. -/
def Obligations.ProducerConsumerRace : Prop :=
  ∀ (x : Sample) (s : State), s.phase = .armed → s.xcnt.toNat < s.xlen.toNat →
    s.sfifo.length < s.params.sinkDepth → s.isFull = false → s.wcur.toNat < s.params.cap →
    (s.xsrc.toNat + s.xcnt.toNat) % s.params.cap = s.wcur.toNat →
    (∃ t u, exec (.push x) s = .next t ∧ takeEvent .engine t = .next u ∧ u.sfifo = s.sfifo ++ [x ++ x]) ∧
    (∃ t u, takeEvent .engine s = .next t ∧ exec (.push x) t = .next u ∧
      u.sfifo = s.sfifo ++ [s.slot s.wcur.toNat ++ s.slot s.wcur.toNat] ∧ u.slot s.wcur.toNat = x)

/-- R187, R266: in an armed RBC that is never reset, completion comes again and again under weak fairness of the Engine and
the Sink, whatever the Host does. -/
def Obligations.CompletionInfinitelyOften : Prop :=
  ∀ (σ : Nat → Event) (s : State), Inv s → s.phase ≠ .idle → (∀ n, σ n ≠ .reset) →
    WeaklyFair σ s .engine engineEnabled → WeaklyFair σ s .sink consumeEnabled →
    ∀ n, ∃ m t, n ≤ m ∧ play σ m s = .next t ∧ t.cpend = true

/-- R187, I3: where the Sink never consumes again and its FIFO is full, the Engine stays in ARMED for ever: no word more is
sent and no completion comes, and no step stops either. -/
def Obligations.StalledSinkHangsEngine : Prop :=
  ∀ (es : List Event) (s : State), Inv s → s.phase = .armed → s.sfifo.length = s.params.sinkDepth →
    (∀ e ∈ es, e ≠ .sink ∧ e ≠ .reset) →
    ∃ t, takeEvents es s = .next t ∧ t.phase = .armed ∧ t.xcnt = s.xcnt ∧ t.sfifo = s.sfifo ∧ t.out = s.out

/-- R20: which state each agent's step may write; the replies are the model's record of what reads returned (log 5). -/
def Obligations.AgentsWriteOnlyTheirState : Prop :=
  ∀ (s t : State),
    (takeEvent .engine s = .next t →
      { t with rcur := s.rcur, phase := s.phase, xsrc := s.xsrc, xlen := s.xlen, xcnt := s.xcnt, sfifo := s.sfifo } = s) ∧
    (takeEvent .sink s = .next t → { t with sfifo := s.sfifo, out := s.out } = s) ∧
    (∀ a, takeEvent (.host a) s = .next t → s.phase ≠ .idle →
      { t with stor := s.stor, wcur := s.wcur, pendb := s.pendb, pendlo := s.pendlo, lpv := s.lpv, lpok := s.lpok,
               badcmd := s.badcmd, replies := s.replies } = s) ∧
    (∀ a, takeEvent (.host a) s = .next t → s.phase = .idle →
      { t with stor := s.stor, wcur := s.wcur, pendb := s.pendb, pendlo := s.pendlo, lpv := s.lpv, lpok := s.lpok,
               badcmd := s.badcmd, replies := s.replies, rcur := s.rcur, phase := s.phase, xsrc := s.xsrc,
               xlen := s.xlen, xcnt := s.xcnt } = s)

/-! ### Registers and the bus -/

/-- R38: STATUS, field by field, and its value after reset. -/
def Obligations.StatusFields : Prop :=
  (∀ p : Params, (State.resetWith p).status = 1) ∧
  ∀ s : State,
    s.status.getLsbD 0 = decide (s.wcur = s.rcur) ∧
    s.status.getLsbD 1 = decide ((s.wcur.toNat + 1) % s.params.cap = s.rcur.toNat) ∧
    s.status.extractLsb' 2 3 =
      (match s.phase with | .idle => 0 | .armed => 1 | .cAck => 2 | .cAdv => 3 | .cRearm => 4) ∧
    s.status.getLsbD 5 = decide (s.phase = .cAck) ∧ s.status.getLsbD 6 = s.lpv ∧ s.status.getLsbD 7 = s.lpok ∧
    s.status.getLsbD 8 = s.pendb ∧ s.status.getLsbD 9 = s.badcmd ∧ s.status.extractLsb' 10 6 = 0 ∧
    ((s.status.extractLsb' 16 16).toNat : Int) = ((s.wcur.toNat : Int) - s.rcur.toNat) % s.params.cap

/-- R212, R63, R67: a well-formed read returns the register's value in the bus's byte order and changes no state but the
model's record of replies (log 5). -/
def Obligations.RegisterReads : Prop :=
  ∀ (s : State) (k : Nat), k < 64 →
    ∃ (w : Word) (t : State), takeEvent (.host (.read (s.params.base + 4 * k) 4)) s = .next t ∧
      t.replies = s.replies ++ [bytesOfWord w] ∧ { t with replies := s.replies } = s ∧
      (k = 0 → w = 0) ∧ (k = 1 → w = s.status) ∧ (k = 2 → w.toNat = s.wcur.toNat) ∧
      (k = 3 → w.toNat = s.rcur.toNat) ∧ (k = 4 → w.toNat = s.params.cap) ∧ (k = 5 → w.toNat = s.xsrc.toNat) ∧
      (k = 6 → w.toNat = s.xlen.toNat) ∧ (k = 7 → w.toNat = s.xcnt.toNat) ∧ (8 ≤ k → w = 0)

/-- R213, R214, R64: a write anywhere but a whole word at CMD changes nothing; an ill-formed read that starts inside the
register space returns zeros, as the model's record of replies has it (log 5), also where it runs past the space's end
(the model's choice, log 7); a read outside it does not reach the RBC. -/
def Obligations.OtherAccessesChangeNothing : Prop :=
  ∀ (s : State) (addr : Nat),
    (∀ bytes, ¬(bytes.length = 4 ∧ addr = s.params.base) → takeEvent (.host (.write addr bytes)) s = .next s) ∧
    (∀ n, 0 < n → s.params.base ≤ addr → addr < s.params.base + 0x100 → (n ≠ 4 ∨ (addr - s.params.base) % 4 ≠ 0) →
      takeEvent (.host (.read addr n)) s = .next { s with replies := s.replies ++ [List.replicate n 0] }) ∧
    (∀ n, addr + n ≤ s.params.base ∨ s.params.base + 0x100 ≤ addr → takeEvent (.host (.read addr n)) s = .next s)

/-- R62: byte `k` of a word on the bus is bits `[8k+7:8k]`, and an ingest pair's first byte is the sample's low byte. -/
def Obligations.ByteLanes : Prop :=
  (∀ (b0 b1 b2 b3 : Byte) (j : Nat), j < 8 →
    (wordOfBytes [b0, b1, b2, b3]).getLsbD j = b0.getLsbD j ∧
    (wordOfBytes [b0, b1, b2, b3]).getLsbD (8 + j) = b1.getLsbD j ∧
    (wordOfBytes [b0, b1, b2, b3]).getLsbD (16 + j) = b2.getLsbD j ∧
    (wordOfBytes [b0, b1, b2, b3]).getLsbD (24 + j) = b3.getLsbD j) ∧
  (∀ w : Word, wordOfBytes (bytesOfWord w) = w) ∧
  (∀ hi lo : Byte, (sampleOf hi lo).toNat = 256 * hi.toNat + lo.toNat)

/-! ### Reset and the whole machine -/

/-- R39: every element after the power-on reset, for all parameters; storage is the free value of log 2; STATUS reads 1. -/
def Obligations.StateAfterReset : Prop :=
  ∀ p : Params,
    let s := State.resetWith p
    s.wcur = 0 ∧ s.rcur = 0 ∧ s.phase = .idle ∧ s.xsrc = 0 ∧ s.xlen = 0 ∧ s.xcnt = 0 ∧ s.pendb = false ∧
    s.pendlo = 0 ∧ s.lpv = false ∧ s.lpok = false ∧ s.badcmd = false ∧ s.sfifo = [] ∧ s.out = [] ∧
    (∀ i, s.slot i = Config.powerUp i) ∧ s.status = 1 ∧ s.free = p.cap - 1

/-- R260: reset at any later time gives every RBC element its reset value and every slot a free one (log 2), leaves SFIFO,
OUT and the parameters, and no transfer is in flight. -/
def Obligations.ResetAtAnyTime : Prop :=
  ∀ s : State, ∃ t, takeEvent .reset s = .next t ∧
    t.wcur = 0 ∧ t.rcur = 0 ∧ t.phase = .idle ∧ t.xsrc = 0 ∧ t.xlen = 0 ∧ t.xcnt = 0 ∧ t.pendb = false ∧
    t.pendlo = 0 ∧ t.lpv = false ∧ t.lpok = false ∧ t.badcmd = false ∧
    t.sfifo = s.sfifo ∧ t.out = s.out ∧ t.params = s.params ∧ t.status = 1 ∧ takeEvent .engine t = .next t ∧
    (∀ i, t.slot i = Config.storageInit (s.resets + 1) i (s.slot i))

/-- R36 holds right after reset, for all parameters, with the canonical form of the storage list (log 3). -/
def Obligations.InvariantAtReset : Prop :=
  ∀ p : Params, Inv (State.resetWith p)

/-- R36: every step keeps the invariant, the canonical form of the storage list with it (log 3), from every state that
meets it. -/
def Obligations.InvariantKeptByStep : Prop :=
  ∀ s t : State, Inv s → step s = .next t → Inv t

/-- R36: every reachable state, that is after any events from the reset state of any parameters, satisfies the rule's lines;
the canonical form of the storage list is the model's own (log 3) and is not among them. -/
def Obligations.ReachableStatesMeetInvariant : Prop :=
  ∀ (p : Params) (es : List Event), ∃ t, takeEvents es (State.resetWith p) = .next t ∧
    CursorsInRange t ∧ TransferOk t ∧ DecoderOk t ∧ SinkOk t

/-- R230: nothing traps or halts: from every state that meets the invariant of R36, every step answers a next state. -/
def Obligations.StepNeverStops : Prop :=
  ∀ s : State, Inv s → ∃ t, step s = .next t
end

