-- ==== Sys2Proof/Laws/State.lean ====
section
/-! SUPPORT. One lemma per field per named update of the state: what the update writes and what it leaves. -/

namespace Sys2Proof.Machine

@[simp] theorem State.setWcur_params (s : State) (c : Cursor) : (s.setWcur c).params = s.params := rfl
@[simp] theorem State.setWcur_stor (s : State) (c : Cursor) : (s.setWcur c).stor = s.stor := rfl
@[simp] theorem State.setWcur_wcur (s : State) (c : Cursor) : (s.setWcur c).wcur = c := rfl
@[simp] theorem State.setWcur_rcur (s : State) (c : Cursor) : (s.setWcur c).rcur = s.rcur := rfl
@[simp] theorem State.setWcur_phase (s : State) (c : Cursor) : (s.setWcur c).phase = s.phase := rfl
@[simp] theorem State.setWcur_xsrc (s : State) (c : Cursor) : (s.setWcur c).xsrc = s.xsrc := rfl
@[simp] theorem State.setWcur_xlen (s : State) (c : Cursor) : (s.setWcur c).xlen = s.xlen := rfl
@[simp] theorem State.setWcur_xcnt (s : State) (c : Cursor) : (s.setWcur c).xcnt = s.xcnt := rfl
@[simp] theorem State.setWcur_pendb (s : State) (c : Cursor) : (s.setWcur c).pendb = s.pendb := rfl
@[simp] theorem State.setWcur_pendlo (s : State) (c : Cursor) : (s.setWcur c).pendlo = s.pendlo := rfl
@[simp] theorem State.setWcur_lpv (s : State) (c : Cursor) : (s.setWcur c).lpv = s.lpv := rfl
@[simp] theorem State.setWcur_lpok (s : State) (c : Cursor) : (s.setWcur c).lpok = s.lpok := rfl
@[simp] theorem State.setWcur_badcmd (s : State) (c : Cursor) : (s.setWcur c).badcmd = s.badcmd := rfl
@[simp] theorem State.setWcur_sfifo (s : State) (c : Cursor) : (s.setWcur c).sfifo = s.sfifo := rfl
@[simp] theorem State.setWcur_out (s : State) (c : Cursor) : (s.setWcur c).out = s.out := rfl
@[simp] theorem State.setWcur_replies (s : State) (c : Cursor) : (s.setWcur c).replies = s.replies := rfl
@[simp] theorem State.setWcur_sched (s : State) (c : Cursor) : (s.setWcur c).sched = s.sched := rfl
@[simp] theorem State.setWcur_tick (s : State) (c : Cursor) : (s.setWcur c).tick = s.tick := rfl
@[simp] theorem State.setWcur_resets (s : State) (c : Cursor) : (s.setWcur c).resets = s.resets := rfl

@[simp] theorem State.setRcur_params (s : State) (c : Cursor) : (s.setRcur c).params = s.params := rfl
@[simp] theorem State.setRcur_stor (s : State) (c : Cursor) : (s.setRcur c).stor = s.stor := rfl
@[simp] theorem State.setRcur_wcur (s : State) (c : Cursor) : (s.setRcur c).wcur = s.wcur := rfl
@[simp] theorem State.setRcur_rcur (s : State) (c : Cursor) : (s.setRcur c).rcur = c := rfl
@[simp] theorem State.setRcur_phase (s : State) (c : Cursor) : (s.setRcur c).phase = s.phase := rfl
@[simp] theorem State.setRcur_xsrc (s : State) (c : Cursor) : (s.setRcur c).xsrc = s.xsrc := rfl
@[simp] theorem State.setRcur_xlen (s : State) (c : Cursor) : (s.setRcur c).xlen = s.xlen := rfl
@[simp] theorem State.setRcur_xcnt (s : State) (c : Cursor) : (s.setRcur c).xcnt = s.xcnt := rfl
@[simp] theorem State.setRcur_pendb (s : State) (c : Cursor) : (s.setRcur c).pendb = s.pendb := rfl
@[simp] theorem State.setRcur_pendlo (s : State) (c : Cursor) : (s.setRcur c).pendlo = s.pendlo := rfl
@[simp] theorem State.setRcur_lpv (s : State) (c : Cursor) : (s.setRcur c).lpv = s.lpv := rfl
@[simp] theorem State.setRcur_lpok (s : State) (c : Cursor) : (s.setRcur c).lpok = s.lpok := rfl
@[simp] theorem State.setRcur_badcmd (s : State) (c : Cursor) : (s.setRcur c).badcmd = s.badcmd := rfl
@[simp] theorem State.setRcur_sfifo (s : State) (c : Cursor) : (s.setRcur c).sfifo = s.sfifo := rfl
@[simp] theorem State.setRcur_out (s : State) (c : Cursor) : (s.setRcur c).out = s.out := rfl
@[simp] theorem State.setRcur_replies (s : State) (c : Cursor) : (s.setRcur c).replies = s.replies := rfl
@[simp] theorem State.setRcur_sched (s : State) (c : Cursor) : (s.setRcur c).sched = s.sched := rfl
@[simp] theorem State.setRcur_tick (s : State) (c : Cursor) : (s.setRcur c).tick = s.tick := rfl
@[simp] theorem State.setRcur_resets (s : State) (c : Cursor) : (s.setRcur c).resets = s.resets := rfl

@[simp] theorem State.setPhase_params (s : State) (p : Phase) : (s.setPhase p).params = s.params := rfl
@[simp] theorem State.setPhase_stor (s : State) (p : Phase) : (s.setPhase p).stor = s.stor := rfl
@[simp] theorem State.setPhase_wcur (s : State) (p : Phase) : (s.setPhase p).wcur = s.wcur := rfl
@[simp] theorem State.setPhase_rcur (s : State) (p : Phase) : (s.setPhase p).rcur = s.rcur := rfl
@[simp] theorem State.setPhase_phase (s : State) (p : Phase) : (s.setPhase p).phase = p := rfl
@[simp] theorem State.setPhase_xsrc (s : State) (p : Phase) : (s.setPhase p).xsrc = s.xsrc := rfl
@[simp] theorem State.setPhase_xlen (s : State) (p : Phase) : (s.setPhase p).xlen = s.xlen := rfl
@[simp] theorem State.setPhase_xcnt (s : State) (p : Phase) : (s.setPhase p).xcnt = s.xcnt := rfl
@[simp] theorem State.setPhase_pendb (s : State) (p : Phase) : (s.setPhase p).pendb = s.pendb := rfl
@[simp] theorem State.setPhase_pendlo (s : State) (p : Phase) : (s.setPhase p).pendlo = s.pendlo := rfl
@[simp] theorem State.setPhase_lpv (s : State) (p : Phase) : (s.setPhase p).lpv = s.lpv := rfl
@[simp] theorem State.setPhase_lpok (s : State) (p : Phase) : (s.setPhase p).lpok = s.lpok := rfl
@[simp] theorem State.setPhase_badcmd (s : State) (p : Phase) : (s.setPhase p).badcmd = s.badcmd := rfl
@[simp] theorem State.setPhase_sfifo (s : State) (p : Phase) : (s.setPhase p).sfifo = s.sfifo := rfl
@[simp] theorem State.setPhase_out (s : State) (p : Phase) : (s.setPhase p).out = s.out := rfl
@[simp] theorem State.setPhase_replies (s : State) (p : Phase) : (s.setPhase p).replies = s.replies := rfl
@[simp] theorem State.setPhase_sched (s : State) (p : Phase) : (s.setPhase p).sched = s.sched := rfl
@[simp] theorem State.setPhase_tick (s : State) (p : Phase) : (s.setPhase p).tick = s.tick := rfl
@[simp] theorem State.setPhase_resets (s : State) (p : Phase) : (s.setPhase p).resets = s.resets := rfl

@[simp] theorem State.setXcnt_params (s : State) (n : Count) : (s.setXcnt n).params = s.params := rfl
@[simp] theorem State.setXcnt_stor (s : State) (n : Count) : (s.setXcnt n).stor = s.stor := rfl
@[simp] theorem State.setXcnt_wcur (s : State) (n : Count) : (s.setXcnt n).wcur = s.wcur := rfl
@[simp] theorem State.setXcnt_rcur (s : State) (n : Count) : (s.setXcnt n).rcur = s.rcur := rfl
@[simp] theorem State.setXcnt_phase (s : State) (n : Count) : (s.setXcnt n).phase = s.phase := rfl
@[simp] theorem State.setXcnt_xsrc (s : State) (n : Count) : (s.setXcnt n).xsrc = s.xsrc := rfl
@[simp] theorem State.setXcnt_xlen (s : State) (n : Count) : (s.setXcnt n).xlen = s.xlen := rfl
@[simp] theorem State.setXcnt_xcnt (s : State) (n : Count) : (s.setXcnt n).xcnt = n := rfl
@[simp] theorem State.setXcnt_pendb (s : State) (n : Count) : (s.setXcnt n).pendb = s.pendb := rfl
@[simp] theorem State.setXcnt_pendlo (s : State) (n : Count) : (s.setXcnt n).pendlo = s.pendlo := rfl
@[simp] theorem State.setXcnt_lpv (s : State) (n : Count) : (s.setXcnt n).lpv = s.lpv := rfl
@[simp] theorem State.setXcnt_lpok (s : State) (n : Count) : (s.setXcnt n).lpok = s.lpok := rfl
@[simp] theorem State.setXcnt_badcmd (s : State) (n : Count) : (s.setXcnt n).badcmd = s.badcmd := rfl
@[simp] theorem State.setXcnt_sfifo (s : State) (n : Count) : (s.setXcnt n).sfifo = s.sfifo := rfl
@[simp] theorem State.setXcnt_out (s : State) (n : Count) : (s.setXcnt n).out = s.out := rfl
@[simp] theorem State.setXcnt_replies (s : State) (n : Count) : (s.setXcnt n).replies = s.replies := rfl
@[simp] theorem State.setXcnt_sched (s : State) (n : Count) : (s.setXcnt n).sched = s.sched := rfl
@[simp] theorem State.setXcnt_tick (s : State) (n : Count) : (s.setXcnt n).tick = s.tick := rfl
@[simp] theorem State.setXcnt_resets (s : State) (n : Count) : (s.setXcnt n).resets = s.resets := rfl

@[simp] theorem State.setPending_params (s : State) (b : Byte) : (s.setPending b).params = s.params := rfl
@[simp] theorem State.setPending_stor (s : State) (b : Byte) : (s.setPending b).stor = s.stor := rfl
@[simp] theorem State.setPending_wcur (s : State) (b : Byte) : (s.setPending b).wcur = s.wcur := rfl
@[simp] theorem State.setPending_rcur (s : State) (b : Byte) : (s.setPending b).rcur = s.rcur := rfl
@[simp] theorem State.setPending_phase (s : State) (b : Byte) : (s.setPending b).phase = s.phase := rfl
@[simp] theorem State.setPending_xsrc (s : State) (b : Byte) : (s.setPending b).xsrc = s.xsrc := rfl
@[simp] theorem State.setPending_xlen (s : State) (b : Byte) : (s.setPending b).xlen = s.xlen := rfl
@[simp] theorem State.setPending_xcnt (s : State) (b : Byte) : (s.setPending b).xcnt = s.xcnt := rfl
@[simp] theorem State.setPending_pendb (s : State) (b : Byte) : (s.setPending b).pendb = true := rfl
@[simp] theorem State.setPending_pendlo (s : State) (b : Byte) : (s.setPending b).pendlo = b := rfl
@[simp] theorem State.setPending_lpv (s : State) (b : Byte) : (s.setPending b).lpv = s.lpv := rfl
@[simp] theorem State.setPending_lpok (s : State) (b : Byte) : (s.setPending b).lpok = s.lpok := rfl
@[simp] theorem State.setPending_badcmd (s : State) (b : Byte) : (s.setPending b).badcmd = s.badcmd := rfl
@[simp] theorem State.setPending_sfifo (s : State) (b : Byte) : (s.setPending b).sfifo = s.sfifo := rfl
@[simp] theorem State.setPending_out (s : State) (b : Byte) : (s.setPending b).out = s.out := rfl
@[simp] theorem State.setPending_replies (s : State) (b : Byte) : (s.setPending b).replies = s.replies := rfl
@[simp] theorem State.setPending_sched (s : State) (b : Byte) : (s.setPending b).sched = s.sched := rfl
@[simp] theorem State.setPending_tick (s : State) (b : Byte) : (s.setPending b).tick = s.tick := rfl
@[simp] theorem State.setPending_resets (s : State) (b : Byte) : (s.setPending b).resets = s.resets := rfl

@[simp] theorem State.clearPending_params (s : State) : s.clearPending.params = s.params := rfl
@[simp] theorem State.clearPending_stor (s : State) : s.clearPending.stor = s.stor := rfl
@[simp] theorem State.clearPending_wcur (s : State) : s.clearPending.wcur = s.wcur := rfl
@[simp] theorem State.clearPending_rcur (s : State) : s.clearPending.rcur = s.rcur := rfl
@[simp] theorem State.clearPending_phase (s : State) : s.clearPending.phase = s.phase := rfl
@[simp] theorem State.clearPending_xsrc (s : State) : s.clearPending.xsrc = s.xsrc := rfl
@[simp] theorem State.clearPending_xlen (s : State) : s.clearPending.xlen = s.xlen := rfl
@[simp] theorem State.clearPending_xcnt (s : State) : s.clearPending.xcnt = s.xcnt := rfl
@[simp] theorem State.clearPending_pendb (s : State) : s.clearPending.pendb = false := rfl
@[simp] theorem State.clearPending_pendlo (s : State) : s.clearPending.pendlo = 0 := rfl
@[simp] theorem State.clearPending_lpv (s : State) : s.clearPending.lpv = s.lpv := rfl
@[simp] theorem State.clearPending_lpok (s : State) : s.clearPending.lpok = s.lpok := rfl
@[simp] theorem State.clearPending_badcmd (s : State) : s.clearPending.badcmd = s.badcmd := rfl
@[simp] theorem State.clearPending_sfifo (s : State) : s.clearPending.sfifo = s.sfifo := rfl
@[simp] theorem State.clearPending_out (s : State) : s.clearPending.out = s.out := rfl
@[simp] theorem State.clearPending_replies (s : State) : s.clearPending.replies = s.replies := rfl
@[simp] theorem State.clearPending_sched (s : State) : s.clearPending.sched = s.sched := rfl
@[simp] theorem State.clearPending_tick (s : State) : s.clearPending.tick = s.tick := rfl
@[simp] theorem State.clearPending_resets (s : State) : s.clearPending.resets = s.resets := rfl

@[simp] theorem State.setResult_params (s : State) (ok : Bool) : (s.setResult ok).params = s.params := rfl
@[simp] theorem State.setResult_stor (s : State) (ok : Bool) : (s.setResult ok).stor = s.stor := rfl
@[simp] theorem State.setResult_wcur (s : State) (ok : Bool) : (s.setResult ok).wcur = s.wcur := rfl
@[simp] theorem State.setResult_rcur (s : State) (ok : Bool) : (s.setResult ok).rcur = s.rcur := rfl
@[simp] theorem State.setResult_phase (s : State) (ok : Bool) : (s.setResult ok).phase = s.phase := rfl
@[simp] theorem State.setResult_xsrc (s : State) (ok : Bool) : (s.setResult ok).xsrc = s.xsrc := rfl
@[simp] theorem State.setResult_xlen (s : State) (ok : Bool) : (s.setResult ok).xlen = s.xlen := rfl
@[simp] theorem State.setResult_xcnt (s : State) (ok : Bool) : (s.setResult ok).xcnt = s.xcnt := rfl
@[simp] theorem State.setResult_pendb (s : State) (ok : Bool) : (s.setResult ok).pendb = s.pendb := rfl
@[simp] theorem State.setResult_pendlo (s : State) (ok : Bool) : (s.setResult ok).pendlo = s.pendlo := rfl
@[simp] theorem State.setResult_lpv (s : State) (ok : Bool) : (s.setResult ok).lpv = true := rfl
@[simp] theorem State.setResult_lpok (s : State) (ok : Bool) : (s.setResult ok).lpok = ok := rfl
@[simp] theorem State.setResult_badcmd (s : State) (ok : Bool) : (s.setResult ok).badcmd = s.badcmd := rfl
@[simp] theorem State.setResult_sfifo (s : State) (ok : Bool) : (s.setResult ok).sfifo = s.sfifo := rfl
@[simp] theorem State.setResult_out (s : State) (ok : Bool) : (s.setResult ok).out = s.out := rfl
@[simp] theorem State.setResult_replies (s : State) (ok : Bool) : (s.setResult ok).replies = s.replies := rfl
@[simp] theorem State.setResult_sched (s : State) (ok : Bool) : (s.setResult ok).sched = s.sched := rfl
@[simp] theorem State.setResult_tick (s : State) (ok : Bool) : (s.setResult ok).tick = s.tick := rfl
@[simp] theorem State.setResult_resets (s : State) (ok : Bool) : (s.setResult ok).resets = s.resets := rfl

@[simp] theorem State.setBadcmd_params (s : State) : s.setBadcmd.params = s.params := rfl
@[simp] theorem State.setBadcmd_stor (s : State) : s.setBadcmd.stor = s.stor := rfl
@[simp] theorem State.setBadcmd_wcur (s : State) : s.setBadcmd.wcur = s.wcur := rfl
@[simp] theorem State.setBadcmd_rcur (s : State) : s.setBadcmd.rcur = s.rcur := rfl
@[simp] theorem State.setBadcmd_phase (s : State) : s.setBadcmd.phase = s.phase := rfl
@[simp] theorem State.setBadcmd_xsrc (s : State) : s.setBadcmd.xsrc = s.xsrc := rfl
@[simp] theorem State.setBadcmd_xlen (s : State) : s.setBadcmd.xlen = s.xlen := rfl
@[simp] theorem State.setBadcmd_xcnt (s : State) : s.setBadcmd.xcnt = s.xcnt := rfl
@[simp] theorem State.setBadcmd_pendb (s : State) : s.setBadcmd.pendb = s.pendb := rfl
@[simp] theorem State.setBadcmd_pendlo (s : State) : s.setBadcmd.pendlo = s.pendlo := rfl
@[simp] theorem State.setBadcmd_lpv (s : State) : s.setBadcmd.lpv = s.lpv := rfl
@[simp] theorem State.setBadcmd_lpok (s : State) : s.setBadcmd.lpok = s.lpok := rfl
@[simp] theorem State.setBadcmd_badcmd (s : State) : s.setBadcmd.badcmd = true := rfl
@[simp] theorem State.setBadcmd_sfifo (s : State) : s.setBadcmd.sfifo = s.sfifo := rfl
@[simp] theorem State.setBadcmd_out (s : State) : s.setBadcmd.out = s.out := rfl
@[simp] theorem State.setBadcmd_replies (s : State) : s.setBadcmd.replies = s.replies := rfl
@[simp] theorem State.setBadcmd_sched (s : State) : s.setBadcmd.sched = s.sched := rfl
@[simp] theorem State.setBadcmd_tick (s : State) : s.setBadcmd.tick = s.tick := rfl
@[simp] theorem State.setBadcmd_resets (s : State) : s.setBadcmd.resets = s.resets := rfl

@[simp] theorem State.armTransfer_params (s : State) (x : Cursor) (n : Count) : (s.armTransfer x n).params = s.params := rfl
@[simp] theorem State.armTransfer_stor (s : State) (x : Cursor) (n : Count) : (s.armTransfer x n).stor = s.stor := rfl
@[simp] theorem State.armTransfer_wcur (s : State) (x : Cursor) (n : Count) : (s.armTransfer x n).wcur = s.wcur := rfl
@[simp] theorem State.armTransfer_rcur (s : State) (x : Cursor) (n : Count) : (s.armTransfer x n).rcur = s.rcur := rfl
@[simp] theorem State.armTransfer_phase (s : State) (x : Cursor) (n : Count) : (s.armTransfer x n).phase = .armed := rfl
@[simp] theorem State.armTransfer_xsrc (s : State) (x : Cursor) (n : Count) : (s.armTransfer x n).xsrc = x := rfl
@[simp] theorem State.armTransfer_xlen (s : State) (x : Cursor) (n : Count) : (s.armTransfer x n).xlen = n := rfl
@[simp] theorem State.armTransfer_xcnt (s : State) (x : Cursor) (n : Count) : (s.armTransfer x n).xcnt = 0 := rfl
@[simp] theorem State.armTransfer_pendb (s : State) (x : Cursor) (n : Count) : (s.armTransfer x n).pendb = s.pendb := rfl
@[simp] theorem State.armTransfer_pendlo (s : State) (x : Cursor) (n : Count) : (s.armTransfer x n).pendlo = s.pendlo := rfl
@[simp] theorem State.armTransfer_lpv (s : State) (x : Cursor) (n : Count) : (s.armTransfer x n).lpv = s.lpv := rfl
@[simp] theorem State.armTransfer_lpok (s : State) (x : Cursor) (n : Count) : (s.armTransfer x n).lpok = s.lpok := rfl
@[simp] theorem State.armTransfer_badcmd (s : State) (x : Cursor) (n : Count) : (s.armTransfer x n).badcmd = s.badcmd := rfl
@[simp] theorem State.armTransfer_sfifo (s : State) (x : Cursor) (n : Count) : (s.armTransfer x n).sfifo = s.sfifo := rfl
@[simp] theorem State.armTransfer_out (s : State) (x : Cursor) (n : Count) : (s.armTransfer x n).out = s.out := rfl
@[simp] theorem State.armTransfer_replies (s : State) (x : Cursor) (n : Count) : (s.armTransfer x n).replies = s.replies := rfl
@[simp] theorem State.armTransfer_sched (s : State) (x : Cursor) (n : Count) : (s.armTransfer x n).sched = s.sched := rfl
@[simp] theorem State.armTransfer_tick (s : State) (x : Cursor) (n : Count) : (s.armTransfer x n).tick = s.tick := rfl
@[simp] theorem State.armTransfer_resets (s : State) (x : Cursor) (n : Count) : (s.armTransfer x n).resets = s.resets := rfl

@[simp] theorem State.raiseCompletion_params (s : State) : s.raiseCompletion.params = s.params := rfl
@[simp] theorem State.raiseCompletion_stor (s : State) : s.raiseCompletion.stor = s.stor := rfl
@[simp] theorem State.raiseCompletion_wcur (s : State) : s.raiseCompletion.wcur = s.wcur := rfl
@[simp] theorem State.raiseCompletion_rcur (s : State) : s.raiseCompletion.rcur = s.rcur := rfl
@[simp] theorem State.raiseCompletion_phase (s : State) : s.raiseCompletion.phase = .cAck := rfl
@[simp] theorem State.raiseCompletion_xsrc (s : State) : s.raiseCompletion.xsrc = s.xsrc := rfl
@[simp] theorem State.raiseCompletion_xlen (s : State) : s.raiseCompletion.xlen = s.xlen := rfl
@[simp] theorem State.raiseCompletion_xcnt (s : State) : s.raiseCompletion.xcnt = s.xcnt := rfl
@[simp] theorem State.raiseCompletion_pendb (s : State) : s.raiseCompletion.pendb = s.pendb := rfl
@[simp] theorem State.raiseCompletion_pendlo (s : State) : s.raiseCompletion.pendlo = s.pendlo := rfl
@[simp] theorem State.raiseCompletion_lpv (s : State) : s.raiseCompletion.lpv = s.lpv := rfl
@[simp] theorem State.raiseCompletion_lpok (s : State) : s.raiseCompletion.lpok = s.lpok := rfl
@[simp] theorem State.raiseCompletion_badcmd (s : State) : s.raiseCompletion.badcmd = s.badcmd := rfl
@[simp] theorem State.raiseCompletion_sfifo (s : State) : s.raiseCompletion.sfifo = s.sfifo := rfl
@[simp] theorem State.raiseCompletion_out (s : State) : s.raiseCompletion.out = s.out := rfl
@[simp] theorem State.raiseCompletion_replies (s : State) : s.raiseCompletion.replies = s.replies := rfl
@[simp] theorem State.raiseCompletion_sched (s : State) : s.raiseCompletion.sched = s.sched := rfl
@[simp] theorem State.raiseCompletion_tick (s : State) : s.raiseCompletion.tick = s.tick := rfl
@[simp] theorem State.raiseCompletion_resets (s : State) : s.raiseCompletion.resets = s.resets := rfl

@[simp] theorem State.sinkPush_params (s : State) (w : Word) : (s.sinkPush w).params = s.params := rfl
@[simp] theorem State.sinkPush_stor (s : State) (w : Word) : (s.sinkPush w).stor = s.stor := rfl
@[simp] theorem State.sinkPush_wcur (s : State) (w : Word) : (s.sinkPush w).wcur = s.wcur := rfl
@[simp] theorem State.sinkPush_rcur (s : State) (w : Word) : (s.sinkPush w).rcur = s.rcur := rfl
@[simp] theorem State.sinkPush_phase (s : State) (w : Word) : (s.sinkPush w).phase = s.phase := rfl
@[simp] theorem State.sinkPush_xsrc (s : State) (w : Word) : (s.sinkPush w).xsrc = s.xsrc := rfl
@[simp] theorem State.sinkPush_xlen (s : State) (w : Word) : (s.sinkPush w).xlen = s.xlen := rfl
@[simp] theorem State.sinkPush_xcnt (s : State) (w : Word) : (s.sinkPush w).xcnt = s.xcnt := rfl
@[simp] theorem State.sinkPush_pendb (s : State) (w : Word) : (s.sinkPush w).pendb = s.pendb := rfl
@[simp] theorem State.sinkPush_pendlo (s : State) (w : Word) : (s.sinkPush w).pendlo = s.pendlo := rfl
@[simp] theorem State.sinkPush_lpv (s : State) (w : Word) : (s.sinkPush w).lpv = s.lpv := rfl
@[simp] theorem State.sinkPush_lpok (s : State) (w : Word) : (s.sinkPush w).lpok = s.lpok := rfl
@[simp] theorem State.sinkPush_badcmd (s : State) (w : Word) : (s.sinkPush w).badcmd = s.badcmd := rfl
@[simp] theorem State.sinkPush_sfifo (s : State) (w : Word) : (s.sinkPush w).sfifo = s.sfifo ++ [w] := rfl
@[simp] theorem State.sinkPush_out (s : State) (w : Word) : (s.sinkPush w).out = s.out := rfl
@[simp] theorem State.sinkPush_replies (s : State) (w : Word) : (s.sinkPush w).replies = s.replies := rfl
@[simp] theorem State.sinkPush_sched (s : State) (w : Word) : (s.sinkPush w).sched = s.sched := rfl
@[simp] theorem State.sinkPush_tick (s : State) (w : Word) : (s.sinkPush w).tick = s.tick := rfl
@[simp] theorem State.sinkPush_resets (s : State) (w : Word) : (s.sinkPush w).resets = s.resets := rfl

@[simp] theorem State.reply_params (s : State) (b : List Byte) : (s.reply b).params = s.params := rfl
@[simp] theorem State.reply_stor (s : State) (b : List Byte) : (s.reply b).stor = s.stor := rfl
@[simp] theorem State.reply_wcur (s : State) (b : List Byte) : (s.reply b).wcur = s.wcur := rfl
@[simp] theorem State.reply_rcur (s : State) (b : List Byte) : (s.reply b).rcur = s.rcur := rfl
@[simp] theorem State.reply_phase (s : State) (b : List Byte) : (s.reply b).phase = s.phase := rfl
@[simp] theorem State.reply_xsrc (s : State) (b : List Byte) : (s.reply b).xsrc = s.xsrc := rfl
@[simp] theorem State.reply_xlen (s : State) (b : List Byte) : (s.reply b).xlen = s.xlen := rfl
@[simp] theorem State.reply_xcnt (s : State) (b : List Byte) : (s.reply b).xcnt = s.xcnt := rfl
@[simp] theorem State.reply_pendb (s : State) (b : List Byte) : (s.reply b).pendb = s.pendb := rfl
@[simp] theorem State.reply_pendlo (s : State) (b : List Byte) : (s.reply b).pendlo = s.pendlo := rfl
@[simp] theorem State.reply_lpv (s : State) (b : List Byte) : (s.reply b).lpv = s.lpv := rfl
@[simp] theorem State.reply_lpok (s : State) (b : List Byte) : (s.reply b).lpok = s.lpok := rfl
@[simp] theorem State.reply_badcmd (s : State) (b : List Byte) : (s.reply b).badcmd = s.badcmd := rfl
@[simp] theorem State.reply_sfifo (s : State) (b : List Byte) : (s.reply b).sfifo = s.sfifo := rfl
@[simp] theorem State.reply_out (s : State) (b : List Byte) : (s.reply b).out = s.out := rfl
@[simp] theorem State.reply_replies (s : State) (b : List Byte) : (s.reply b).replies = s.replies ++ [b] := rfl
@[simp] theorem State.reply_sched (s : State) (b : List Byte) : (s.reply b).sched = s.sched := rfl
@[simp] theorem State.reply_tick (s : State) (b : List Byte) : (s.reply b).tick = s.tick := rfl
@[simp] theorem State.reply_resets (s : State) (b : List Byte) : (s.reply b).resets = s.resets := rfl

@[simp] theorem State.applyReset_params (s : State) : s.applyReset.params = s.params := rfl
@[simp] theorem State.applyReset_stor (s : State) : s.applyReset.stor = s.stor.reinit (s.resets + 1) := rfl
@[simp] theorem State.applyReset_wcur (s : State) : s.applyReset.wcur = 0 := rfl
@[simp] theorem State.applyReset_rcur (s : State) : s.applyReset.rcur = 0 := rfl
@[simp] theorem State.applyReset_phase (s : State) : s.applyReset.phase = .idle := rfl
@[simp] theorem State.applyReset_xsrc (s : State) : s.applyReset.xsrc = 0 := rfl
@[simp] theorem State.applyReset_xlen (s : State) : s.applyReset.xlen = 0 := rfl
@[simp] theorem State.applyReset_xcnt (s : State) : s.applyReset.xcnt = 0 := rfl
@[simp] theorem State.applyReset_pendb (s : State) : s.applyReset.pendb = false := rfl
@[simp] theorem State.applyReset_pendlo (s : State) : s.applyReset.pendlo = 0 := rfl
@[simp] theorem State.applyReset_lpv (s : State) : s.applyReset.lpv = false := rfl
@[simp] theorem State.applyReset_lpok (s : State) : s.applyReset.lpok = false := rfl
@[simp] theorem State.applyReset_badcmd (s : State) : s.applyReset.badcmd = false := rfl
@[simp] theorem State.applyReset_sfifo (s : State) : s.applyReset.sfifo = s.sfifo := rfl
@[simp] theorem State.applyReset_out (s : State) : s.applyReset.out = s.out := rfl
@[simp] theorem State.applyReset_replies (s : State) : s.applyReset.replies = s.replies := rfl
@[simp] theorem State.applyReset_sched (s : State) : s.applyReset.sched = s.sched := rfl
@[simp] theorem State.applyReset_tick (s : State) : s.applyReset.tick = s.tick := rfl
@[simp] theorem State.applyReset_resets (s : State) : s.applyReset.resets = s.resets + 1 := rfl

/-- A slot's content depends on the storage and the number of resets alone. -/
theorem State.slot_congr {s t : State} (hm : s.stor = t.stor) (hr : s.resets = t.resets) (i : Nat) :
    s.slot i = t.slot i := by simp [State.slot, hm, hr]

@[simp] theorem State.setWcur_slot (s : State) (c : Cursor) (i : Nat) : (s.setWcur c).slot i = s.slot i := rfl
@[simp] theorem State.setRcur_slot (s : State) (c : Cursor) (i : Nat) : (s.setRcur c).slot i = s.slot i := rfl
@[simp] theorem State.setPhase_slot (s : State) (p : Phase) (i : Nat) : (s.setPhase p).slot i = s.slot i := rfl
@[simp] theorem State.setXcnt_slot (s : State) (n : Count) (i : Nat) : (s.setXcnt n).slot i = s.slot i := rfl
@[simp] theorem State.setPending_slot (s : State) (b : Byte) (i : Nat) : (s.setPending b).slot i = s.slot i := rfl
@[simp] theorem State.clearPending_slot (s : State) (i : Nat) : s.clearPending.slot i = s.slot i := rfl
@[simp] theorem State.setResult_slot (s : State) (ok : Bool) (i : Nat) : (s.setResult ok).slot i = s.slot i := rfl
@[simp] theorem State.setBadcmd_slot (s : State) (i : Nat) : s.setBadcmd.slot i = s.slot i := rfl
@[simp] theorem State.armTransfer_slot (s : State) (x : Cursor) (n : Count) (i : Nat) : (s.armTransfer x n).slot i = s.slot i := rfl
@[simp] theorem State.raiseCompletion_slot (s : State) (i : Nat) : s.raiseCompletion.slot i = s.slot i := rfl
@[simp] theorem State.sinkPush_slot (s : State) (w : Word) (i : Nat) : (s.sinkPush w).slot i = s.slot i := rfl
@[simp] theorem State.reply_slot (s : State) (b : List Byte) (i : Nat) : (s.reply b).slot i = s.slot i := rfl

end Sys2Proof.Machine
end

