-- ==== Sys2Proof/Laws/Memory.lean ====
section
/-! SUPPORT. The storage: read after write, and every operation keeps the canonical form `Memory.wf`. -/

namespace Sys2Proof.Machine

theorem Memory.lookup_put_same (m : Memory) (i : Nat) (v : Sample) : (m.put i v).lookup i = some v := by
  induction m with
  | nil => simp [Memory.put, Memory.lookup]
  | cons e m ih =>
    obtain ⟨j, u⟩ := e
    simp only [Memory.put]
    split
    · simp [Memory.lookup]
    · split
      · simp [Memory.lookup]
      · next hne => simp [Memory.lookup, Ne.symm hne, ih]

theorem Memory.lookup_put_other (m : Memory) {i k : Nat} (v : Sample) (h : k ≠ i) :
    (m.put i v).lookup k = m.lookup k := by
  induction m with
  | nil => simp [Memory.put, Memory.lookup, Ne.symm h]
  | cons e m ih =>
    obtain ⟨j, u⟩ := e
    simp only [Memory.put]
    split
    · simp [Memory.lookup, Ne.symm h]
    · split
      · next hij => subst hij; simp [Memory.lookup, Ne.symm h]
      · simp [Memory.lookup, ih]

theorem Memory.risingFrom_put (m : Memory) {lo i : Nat} (v : Sample) (hlo : lo ≤ i)
    (h : m.risingFrom lo = true) : (m.put i v).risingFrom lo = true := by
  induction m generalizing lo with
  | nil => simp [Memory.put, Memory.risingFrom, hlo]
  | cons e m ih =>
    obtain ⟨j, u⟩ := e
    simp only [Memory.risingFrom, Bool.and_eq_true, decide_eq_true_eq] at h
    simp only [Memory.put]
    split
    · next hij => simp [Memory.risingFrom, hlo, h.2]; omega
    · split
      · next hij => subst hij; simp [Memory.risingFrom, hlo, h.2]
      · simp only [Memory.risingFrom, Bool.and_eq_true, decide_eq_true_eq]
        exact ⟨h.1, ih (by omega) h.2⟩

theorem Memory.below_put (m : Memory) {cap i : Nat} (v : Sample) (hi : i < cap)
    (h : m.below cap = true) : (m.put i v).below cap = true := by
  induction m with
  | nil => simp [Memory.put, Memory.below, hi]
  | cons e m ih =>
    obtain ⟨j, u⟩ := e
    simp only [Memory.below, Bool.and_eq_true, decide_eq_true_eq] at h
    simp only [Memory.put]
    split
    · simp [Memory.below, hi, h.1, h.2]
    · split
      · simp [Memory.below, hi, h.2]
      · simp [Memory.below, h.1, ih h.2]

/-- Writing one of the CAP slots keeps the canonical form. -/
theorem Memory.wf_put (m : Memory) {cap i : Nat} (v : Sample) (hi : i < cap) (h : m.wf cap = true) :
    (m.put i v).wf cap = true := by
  simp only [Memory.wf, Bool.and_eq_true] at h ⊢
  exact ⟨Memory.risingFrom_put m v (Nat.zero_le _) h.1, Memory.below_put m v hi h.2⟩

theorem Memory.risingFrom_reinit (m : Memory) (k lo : Nat) : (m.reinit k).risingFrom lo = m.risingFrom lo := by
  induction m generalizing lo with
  | nil => rfl
  | cons e m ih => simp [Memory.reinit, Memory.risingFrom, ih]

theorem Memory.below_reinit (m : Memory) (k cap : Nat) : (m.reinit k).below cap = m.below cap := by
  induction m with
  | nil => rfl
  | cons e m ih => simp [Memory.reinit, Memory.below, ih]

/-- Reset keeps the canonical form: it changes contents, not which slots are listed. -/
theorem Memory.wf_reinit (m : Memory) (k cap : Nat) : (m.reinit k).wf cap = m.wf cap := by
  simp [Memory.wf, Memory.risingFrom_reinit, Memory.below_reinit]

theorem Memory.lookup_reinit (m : Memory) (k i : Nat) :
    (m.reinit k).lookup i = (m.lookup i).map (Config.storageInit k i) := by
  induction m with
  | nil => rfl
  | cons e m ih =>
    obtain ⟨j, u⟩ := e
    simp only [Memory.reinit, Memory.lookup]
    split
    · next h => subst h; rfl
    · exact ih

/-- The canonical form holds at reset, where no slot is listed. -/
theorem Memory.wf_reset (p : Params) : (State.resetWith p).stor.wf p.cap = true := rfl

/-- After reset every slot holds STORAGE_INIT given what it held before, listed or not (R260, R262). -/
theorem State.applyReset_slot (s : State) (i : Nat) :
    s.applyReset.slot i = Config.storageInit (s.resets + 1) i (s.slot i) := by
  simp only [State.slot, State.applyReset_stor, State.applyReset_resets, Memory.lookup_reinit]
  cases s.stor.lookup i <;> rfl

end Sys2Proof.Machine
end

