-- ==== Sys2Proof/Laws/Operands.lean ====
section
/-! SUPPORT. Arithmetic of cursors and counts, and the byte order of words. -/

namespace Sys2Proof

theorem Params.cap_pos (p : Params) : 0 < p.cap := by have := p.two_le_cap; omega

end Sys2Proof

namespace Sys2Proof.Machine

/-- No cursor computation overflows its field: the value is the exact sum modulo CAP (R123). -/
theorem wrapAdd_toNat (p : Params) (x : Cursor) (n : Nat) :
    (wrapAdd p.cap x n).toNat = (x.toNat + n) % p.cap := by
  have hlt : (x.toNat + n) % p.cap < p.cap := Nat.mod_lt _ p.cap_pos
  have hcap := p.cap_le
  simp only [wrapAdd, BitVec.toNat_ofNat]
  exact Nat.mod_eq_of_lt (by omega)

theorem wrapAdd_lt (p : Params) (x : Cursor) (n : Nat) : (wrapAdd p.cap x n).toNat < p.cap := by
  rw [wrapAdd_toNat]; exact Nat.mod_lt _ p.cap_pos

/-- Advancing by CAP is the identity on a cursor in range (R179). -/
theorem wrapAdd_cap (p : Params) {x : Cursor} (h : x.toNat < p.cap) : wrapAdd p.cap x p.cap = x := by
  apply BitVec.eq_of_toNat_eq
  rw [wrapAdd_toNat, Nat.add_mod_right, Nat.mod_eq_of_lt h]

/-- CAP fits its 17-bit field (D5). -/
theorem capCount_toNat (p : Params) : (capCount p).toNat = p.cap := by
  have := p.cap_le
  simp only [capCount, BitVec.toNat_ofNat]
  exact Nat.mod_eq_of_lt (by omega)

theorem fetchIndex_lt (s : State) : fetchIndex s < s.params.cap := Nat.mod_lt _ s.params.cap_pos

/-- COUNT for cursors in range, without integers. -/
theorem State.count_eq {s : State} (hw : s.wcur.toNat < s.params.cap) (hr : s.rcur.toNat < s.params.cap) :
    s.count = if s.rcur.toNat ≤ s.wcur.toNat then s.wcur.toNat - s.rcur.toNat
      else s.wcur.toNat + s.params.cap - s.rcur.toNat := by
  unfold State.count
  split
  · rw [Int.emod_eq_of_lt (by omega) (by omega)]; omega
  · rw [← Int.add_emod_right, Int.emod_eq_of_lt (by omega) (by omega)]; omega

theorem State.count_lt (s : State) : s.count < s.params.cap := by
  have hpos := s.params.cap_pos
  have h1 := Int.emod_lt_of_pos ((s.wcur.toNat : Int) - s.rcur.toNat) (b := s.params.cap) (by omega)
  have h2 := Int.emod_nonneg ((s.wcur.toNat : Int) - s.rcur.toNat) (b := s.params.cap) (by omega)
  unfold State.count
  omega

/-- The write cursor's successor, without `mod`. -/
theorem succ_mod_cap {x c : Nat} (h : x < c) : (x + 1) % c = if x + 1 = c then 0 else x + 1 := by
  split
  · next heq => rw [heq, Nat.mod_self]
  · exact Nat.mod_eq_of_lt (by omega)

theorem State.isFull_iff {s : State} : s.isFull = true ↔ (s.wcur.toNat + 1) % s.params.cap = s.rcur.toNat := by
  simp [State.isFull]

theorem State.isEmpty_iff {s : State} : s.isEmpty = true ↔ s.wcur.toNat = s.rcur.toNat := by
  simp [State.isEmpty, BitVec.toNat_eq]

/-- The bus's byte order takes a word apart and puts it together again (R62). -/
theorem wordOfBytes_bytesOfWord (w : Word) : wordOfBytes (bytesOfWord w) = w := by
  simp only [bytesOfWord, wordOfBytes]
  ext i hi
  simp only [BitVec.getElem_or, BitVec.getElem_shiftLeft, BitVec.getElem_setWidth, BitVec.getLsbD_extractLsb']
  interval_cases i <;> simp

end Sys2Proof.Machine
end

