-- ==== Sys2Proof/Laws/PerInstr.lean ====
section
/-! SUPPORT. Families of lemmas about instructions as syntax, one lemma per constructor. -/

namespace Sys2Proof.Laws.EncodingRow

/-- The word of a well-formed instruction selects the instruction's own row of the opcode map (R94). -/
def Statement (i : Instr) : Prop := i.wf = true → encode i &&& rowMask i = rowMatch i

theorem nop : Statement .nop := fun _ => by decide

theorem push (sample : Sample) : Statement (.push sample) := fun _ => by
  simp only [encode, rowMask, rowMatch]
  ext k hk
  simp only [BitVec.getElem_and, BitVec.getElem_append]
  interval_cases k <;> simp

theorem ingb (last : Bool) (byte : Byte) : Statement (.ingb last byte) := fun _ => by
  simp only [encode, rowMask, rowMatch]
  ext k hk
  simp only [BitVec.getElem_and, BitVec.getElem_append]
  interval_cases k <;> simp

theorem inge : Statement .inge := fun _ => by decide

theorem advr (n : Nat) : Statement (.advr n) := fun _ => by
  simp only [encode, rowMask, rowMatch]
  ext k hk
  simp only [BitVec.getElem_and, BitVec.getElem_append]
  interval_cases k <;> simp

theorem arm : Statement .arm := fun _ => by decide

end Sys2Proof.Laws.EncodingRow
end

