-- ==== Sys2Proof/Laws/Steps.lean ====
section
/-! SUPPORT. One lemma per shared operation that says everything it can do, guards included; statements about steps are
derived from these and unfold nothing else. -/

namespace Sys2Proof.Machine

/-! ### Sequencing -/

@[simp] theorem andThen_next (s : State) (k : State → Result) : andThen (.next s) k = k s := rfl

theorem andThen_eq_next {r : Result} {k : State → Result} {t : State} (h : andThen r k = .next t) :
    ∃ u, r = .next u ∧ k u = .next t := by
  cases r with
  | next u => exact ⟨u, rfl, h⟩
  | fault f => cases h
  | refused f => cases h

theorem andThen_assoc (r : Result) (k l : State → Result) :
    andThen (andThen r k) l = andThen r fun s => andThen (k s) l := by cases r <;> rfl

theorem execAll_append (is js : List Instr) (s : State) :
    execAll (is ++ js) s = andThen (execAll is s) (execAll js) := by
  induction is generalizing s with
  | nil => rfl
  | cons i is ih =>
    simp only [List.cons_append, execAll, andThen_assoc]
    congr 1
    funext t
    exact ih t

theorem takeEvents_append (es fs : List Event) (s : State) :
    takeEvents (es ++ fs) s = andThen (takeEvents es s) (takeEvents fs) := by
  induction es generalizing s with
  | nil => rfl
  | cons e es ih =>
    simp only [List.cons_append, takeEvents, andThen_assoc]
    congr 1
    funext t
    exact ih t

/-! ### TryWrite -/

/-- The state after a TryWrite that finds room (R121). -/
def State.stored (s : State) (v : Sample) : State :=
  { s with stor := s.stor.put s.wcur.toNat v, wcur := wrapAdd s.params.cap s.wcur 1, lpv := true, lpok := true }

theorem tryWrite_full {s : State} (v : Sample) (h : s.isFull = true) :
    tryWrite v s = .next (s.setResult false) := by simp [tryWrite, h]

theorem tryWrite_room {s : State} (v : Sample) (h : s.isFull = false) (hw : s.wcur.toNat < s.params.cap) :
    tryWrite v s = .next (s.stored v) := by
  simp [tryWrite, h, State.writeSlot, hw, State.stored, State.setWcur, State.setResult]

/-- Everything TryWrite can do. -/
theorem tryWrite_cases {v : Sample} {s t : State} (h : tryWrite v s = .next t) :
    (s.isFull = true ∧ t = s.setResult false) ∨
    (s.isFull = false ∧ s.wcur.toNat < s.params.cap ∧ t = s.stored v) := by
  cases hf : s.isFull with
  | true =>
    rw [tryWrite_full v hf] at h
    exact .inl ⟨rfl, by simpa using h.symm⟩
  | false =>
    by_cases hw : s.wcur.toNat < s.params.cap
    · rw [tryWrite_room v hf hw] at h
      exact .inr ⟨rfl, hw, by simpa using h.symm⟩
    · simp [tryWrite, hf, State.writeSlot, hw, andThen] at h

/-- TryWrite answers a next state wherever WCUR is in range. -/
theorem tryWrite_completes (v : Sample) {s : State} (hw : s.wcur.toNat < s.params.cap) :
    ∃ t, tryWrite v s = .next t := by
  cases hf : s.isFull with
  | true => exact ⟨_, tryWrite_full v hf⟩
  | false => exact ⟨_, tryWrite_room v hf hw⟩

theorem State.stored_slot_same (s : State) (v : Sample) : (s.stored v).slot s.wcur.toNat = v := by
  simp [State.slot, State.stored, Memory.lookup_put_same]

theorem State.stored_slot_other (s : State) (v : Sample) {i : Nat} (h : i ≠ s.wcur.toNat) :
    (s.stored v).slot i = s.slot i := by
  simp [State.slot, State.stored, Memory.lookup_put_other _ _ h]

/-! ### Commands -/

/-- Everything a command can do. -/
theorem exec_cases {i : Instr} {s t : State} (h : exec i s = .next t) :
    t = s ∨ (s.phase ≠ .idle ∧ t = s.setBadcmd) ∨ (∃ b, s.pendb = false ∧ t = s.setPending b) ∨
    t = s.clearPending ∨ (∃ n, i = .advr n ∧ s.phase = .idle ∧ t = advanceRead n s) ∨
    (i = .arm ∧ s.phase = .idle ∧ t = s.armTransfer s.rcur (capCount s.params)) ∨
    (∃ v, tryWrite v s = .next t) ∨ (∃ v, tryWrite v s.clearPending = .next t) := by
  cases i with
  | nop => exact .inl (by simpa [exec, execNop] using h.symm)
  | push v => exact .inr (.inr (.inr (.inr (.inr (.inr (.inl ⟨v, h⟩))))))
  | ingb last b =>
    simp only [exec, execIngb] at h
    split at h
    · next hp => exact .inr (.inr (.inl ⟨b, hp, by simpa using h.symm⟩))
    · exact .inl (by simpa using h.symm)
    · exact .inr (.inr (.inr (.inr (.inr (.inr (.inr ⟨_, h⟩))))))
  | inge => exact .inr (.inr (.inr (.inl (by simpa [exec, execInge] using h.symm))))
  | advr n =>
    simp only [exec, execAdvr] at h
    split at h
    · next hp => exact .inr (.inr (.inr (.inr (.inl ⟨n, rfl, hp, by simpa using h.symm⟩))))
    · next hp => exact .inr (.inl ⟨hp, by simpa using h.symm⟩)
  | arm =>
    simp only [exec, execArm] at h
    split at h
    · next hp => exact .inr (.inr (.inr (.inr (.inr (.inl ⟨rfl, hp, by simpa using h.symm⟩)))))
    · next hp => exact .inr (.inl ⟨hp, by simpa using h.symm⟩)

/-- Every command answers a next state wherever WCUR is in range. -/
theorem exec_completes (i : Instr) {s : State} (hw : s.wcur.toNat < s.params.cap) : ∃ t, exec i s = .next t := by
  cases i with
  | nop => exact ⟨_, rfl⟩
  | push v => exact tryWrite_completes v hw
  | ingb last b =>
    simp only [exec, execIngb]
    split
    · exact ⟨_, rfl⟩
    · exact ⟨_, rfl⟩
    · exact tryWrite_completes _ hw
  | inge => exact ⟨_, rfl⟩
  | advr n => simp only [exec, execAdvr]; split <;> exact ⟨_, rfl⟩
  | arm => simp only [exec, execArm]; split <;> exact ⟨_, rfl⟩

/-! ### Agents -/

/-- Everything the Engine's turn can do. -/
theorem engineTurn_cases (s : State) :
    (engineEnabled s = false ∧ engineTurn s = s) ∨
    (s.phase = .armed ∧ s.xcnt.toNat < s.xlen.toNat ∧ s.sinkHasRoom = true ∧ engineTurn s = stepFetch s) ∨
    (s.phase = .cAck ∧ engineTurn s = stepAck s) ∨ (s.phase = .cAdv ∧ engineTurn s = stepAdv s) ∨
    (s.phase = .cRearm ∧ engineTurn s = stepRearm s) := by
  cases hp : s.phase with
  | idle => exact .inl (by simp [engineEnabled, engineTurn, engineCandidate, hp])
  | armed =>
    cases he : EngineStep.enabled .fetch s with
    | false => exact .inl (by simp [engineEnabled, engineTurn, engineCandidate, hp, he])
    | true =>
      have h2 := he
      simp only [EngineStep.enabled, hp, Bool.and_eq_true, decide_eq_true_eq] at h2
      exact .inr (.inl ⟨rfl, h2.1.2, h2.2, by simp [engineTurn, engineCandidate, hp, he, EngineStep.run]⟩)
  | cAck => exact .inr (.inr (.inl ⟨rfl, by simp [engineTurn, engineCandidate, hp, EngineStep.enabled, EngineStep.run]⟩))
  | cAdv => exact .inr (.inr (.inr (.inl ⟨rfl, by simp [engineTurn, engineCandidate, hp, EngineStep.enabled, EngineStep.run]⟩)))
  | cRearm => exact .inr (.inr (.inr (.inr ⟨rfl, by simp [engineTurn, engineCandidate, hp, EngineStep.enabled, EngineStep.run]⟩)))

/-- The state after a FETCH: the word in the sink FIFO, the count one up, and C_ACK after the last word (R175, R176). -/
theorem stepFetch_eq (s : State) :
    stepFetch s =
      { s with
        sfifo := s.sfifo ++ [sinkWord (s.slot (fetchIndex s))], xcnt := s.xcnt + 1
        phase := if s.xcnt + 1 = s.xlen then .cAck else s.phase } := by
  unfold stepFetch
  by_cases h : s.xcnt + 1 = s.xlen
  · rw [if_pos h, if_pos h]; rfl
  · rw [if_neg h, if_neg h]; rfl

/-- Everything the Sink's turn can do. -/
theorem sinkTurn_cases (s : State) :
    (s.sfifo = [] ∧ sinkTurn s = s) ∨
    (∃ w rest, s.sfifo = w :: rest ∧ sinkTurn s = { s with sfifo := rest, out := s.out ++ [w] }) := by
  cases h : s.sfifo with
  | nil => exact .inl ⟨rfl, by simp [sinkTurn, consumeEnabled, h]⟩
  | cons w rest => exact .inr ⟨w, rest, rfl, by simp [sinkTurn, consumeEnabled, h, stepConsume, State.sinkPop]⟩

/-- Everything a command word can do: its command, or ILL. -/
theorem runCommand_cases {w : Word} {s t : State} (h : runCommand w s = .next t) :
    (∃ i, decode w = .cmd i ∧ exec i s = .next t) ∨ (decode w = .ill ∧ t = s.setBadcmd) := by
  unfold runCommand at h
  split at h
  · next i hi => exact .inl ⟨i, hi, h⟩
  · next hi => exact .inr ⟨hi, by simpa [execIll] using h.symm⟩

/-- Everything a bus access can do: nothing, a reply to a read, or the command of a whole word written to CMD. -/
theorem busAccess_cases {a : Access} {s t : State} (h : busAccess a s = .next t) :
    t = s ∨ (∃ bytes, t = s.reply bytes) ∨
    (∃ bytes, a = .write s.params.base bytes ∧ bytes.length = 4 ∧ runCommand (wordOfBytes bytes) s = .next t) := by
  cases a with
  | read addr n =>
    simp only [busAccess] at h
    split at h
    · exact .inr (.inl ⟨_, by simpa using h.symm⟩)
    · exact .inl (by simpa using h.symm)
  | write addr bytes =>
    simp only [busAccess] at h
    split at h
    · next hok =>
      simp only [accessOk, Bool.and_eq_true, beq_iff_eq, decide_eq_true_eq] at hok
      have haddr : addr = s.params.base := by omega
      exact .inr (.inr ⟨bytes, by rw [haddr], by omega, h⟩)
    · exact .inl (by simpa using h.symm)

/-- An event that writes a command word runs it and does nothing else (R90). -/
theorem takeEvent_command {e : Event} {s : State} {w : Word} (h : commandOf s.params e = some w) :
    takeEvent e s = runCommand w s := by
  cases e with
  | host a =>
    cases a with
    | read _ _ => cases h
    | write addr bytes =>
      simp only [commandOf, Option.ite_none_right_eq_some, Option.some.injEq] at h
      simp [takeEvent, busAccess, h.1, ← h.2]
  | engine => cases h
  | sink => cases h
  | reset => cases h

/-- A bus access that writes no command word leaves a reply at most (R63, R64, R212 to R214). -/
theorem busAccess_other {a : Access} {s t : State} (hc : commandOf s.params (.host a) = none)
    (h : busAccess a s = .next t) : t = s ∨ ∃ bytes, t = s.reply bytes := by
  cases a with
  | read addr n =>
    simp only [busAccess] at h
    split at h
    · exact .inr ⟨_, by simpa using h.symm⟩
    · exact .inl (by simpa using h.symm)
  | write addr bytes =>
    simp only [commandOf, ite_eq_right_iff] at hc
    simp only [busAccess] at h
    split at h
    · next hok => exact absurd (hc hok) (by simp)
    · exact .inl (by simpa using h.symm)

/-- A bus access answers a next state wherever WCUR is in range. -/
theorem busAccess_completes (a : Access) {s : State} (hw : s.wcur.toNat < s.params.cap) :
    ∃ t, busAccess a s = .next t := by
  cases a with
  | read addr n => simp only [busAccess]; split <;> exact ⟨_, rfl⟩
  | write addr bytes =>
    simp only [busAccess]
    split
    · unfold runCommand
      split
      · exact exec_completes _ hw
      · exact ⟨_, rfl⟩
    · exact ⟨_, rfl⟩

/-- Choosing the next event changes the schedule and the free events' count alone. -/
theorem nextEvent_state (s : State) : ∃ sched tick, (nextEvent s).2 = { s with sched := sched, tick := tick } := by
  unfold nextEvent
  split
  · exact ⟨_, s.tick, rfl⟩
  · exact ⟨s.sched, _, rfl⟩

theorem step_eq (s : State) : step s = takeEvent (nextEvent s).1 (nextEvent s).2 := rfl

/-! ### The invariant -/

/-- What a transfer holds, phase by phase (R36). -/
theorem transferOk_iff (s : State) :
    TransferOk s ↔
      match s.phase with
      | .idle => s.xlen = 0 ∧ s.xcnt = 0 ∧ s.xsrc = 0
      | .armed => s.xlen = capCount s.params ∧ s.xcnt.toNat < s.params.cap ∧ s.xsrc = s.rcur
      | .cAck => s.xlen = capCount s.params ∧ s.xcnt = capCount s.params ∧ s.xsrc = s.rcur
      | .cAdv => s.xlen = capCount s.params ∧ s.xcnt = capCount s.params ∧ s.xsrc = s.rcur
      | .cRearm => s.xlen = capCount s.params ∧ s.xcnt = capCount s.params ∧ s.xsrc = s.rcur := by
  have hc := capCount_toNat s.params
  unfold TransferOk
  cases s.phase <;> simp <;> constructor <;> intro h <;> simp [h]
  rw [hc]
  omega

end Sys2Proof.Machine
end

