-- ==== Sys2Proof/Tests/Slice0.lean ====
section
/-! SUPPORT. The model's own tests: expected values are those of spec/95_test_vectors.md (the vector's name stands in each
test's comment) or are worked out by hand from the rules; and for each statement with hypotheses a concrete state and
operands that meet all of them. -/

namespace Sys2Proof.Tests

open Sys2Proof.Machine

/-! ### Small states -/

/-- CAP = 4, SINK_DEPTH = 2. -/
def p4 : Params :=
  { cap := 4, sinkDepth := 2, base := 0x100, fs := 1
    two_le_cap := by decide, cap_le := by decide, one_le_sinkDepth := by decide
    base_aligned := by decide, fs_pos := by decide }

/-- CAP = 8, SINK_DEPTH = 2, as the vectors have it. -/
def p8 : Params := { p4 with cap := 8, two_le_cap := by decide, cap_le := by decide }

/-- CAP = 65536, the largest. -/
def pMax : Params := { p4 with cap := 65536, two_le_cap := by decide, cap_le := by decide }

/-- CAP = 2, the smallest. -/
def p2 : Params := { p4 with cap := 2, two_le_cap := by decide, cap_le := by decide }

/-- The reset state with these cursors. -/
def at4 (w r : Cursor) : State := { State.resetWith p4 with wcur := w, rcur := r }

/-- The reset state with these cursors. -/
def at8 (w r : Cursor) : State := { State.resetWith p8 with wcur := w, rcur := r }

/-- A lap of CAP = 4 armed at slot `x`, at word `n`. -/
def lap4 (x : Cursor) (n : Count) : State :=
  { at4 x x with phase := .armed, xsrc := x, xlen := 4, xcnt := n }

/-- What a completed lap of CAP = 4 leaves, in phase `p`. -/
def done4 (p : Phase) (r : Cursor) : State := { at4 r r with phase := p, xsrc := r, xlen := 4, xcnt := 4 }

/-- The next state of a result; the reset state where there is none. -/
def got : Result → State
  | .next t => t
  | .fault _ => State.reset
  | .refused _ => State.reset

/-- There is a next state. -/
def completes : Result → Bool
  | .next _ => true
  | .fault _ => false
  | .refused _ => false

/-! ### Well-formedness and decoding -/

theorem test_wf_refuses_advr_131072 : (Instr.advr 131072).wf = false := by decide

theorem test_wf_accepts_advr_131071 : (Instr.advr 131071).wf = true := by decide

/-- V-DEC-1, V-DEC-2; each word written out from the formats of R92. -/
theorem test_decode_nop : decode 0b0000_0000000000000000000000000000 = .cmd .nop ∧ decode 0x00000001 = .ill := by decide

/-- V-DEC-3 to V-DEC-5. -/
theorem test_decode_push :
    decode 0b0001_000000000000_1111111111111111 = .cmd (.push 0xFFFF) ∧ decode 0x10008000 = .cmd (.push 0x8000) ∧
    decode 0x10010000 = .ill := by decide

/-- V-DEC-6 to V-DEC-8. -/
theorem test_decode_ingb :
    decode 0b0010_0000000000000000000_1_11111111 = .cmd (.ingb true 0xFF) ∧
    decode 0x200000FF = .cmd (.ingb false 0xFF) ∧ decode 0x20000200 = .ill := by decide

/-- V-DEC-9, V-DEC-10. -/
theorem test_decode_inge : decode 0b0011_0000000000000000000000000000 = .cmd .inge ∧ decode 0x30000100 = .ill := by decide

/-- V-DEC-11 to V-DEC-13. -/
theorem test_decode_advr :
    decode 0x40000000 = .cmd (.advr 0) ∧ decode 0b0100_00000000000_11111111111111111 = .cmd (.advr 131071) ∧
    decode 0x40020000 = .ill := by decide

/-- V-DEC-14, V-DEC-15. -/
theorem test_decode_arm : decode 0b0101_0000000000000000000000000000 = .cmd .arm ∧ decode 0x50000001 = .ill := by decide

/-- V-DEC-16 to V-DEC-18. -/
theorem test_decode_unassigned : decode 0x60000000 = .ill ∧ decode 0xF0000000 = .ill ∧ decode 0xFFFFFFFF = .ill := by decide

/-! ### Commands -/

/-- V-PUSH-2: the write cursor wraps, and the buffer is full. -/
theorem test_push_wraps :
    let t := got (exec (.push 0x1234) (at4 3 1))
    t.slot 3 = 0x1234 ∧ t.wcur = 0 ∧ t.status = 0x000300C2 := by decide

/-- V-PUSH-3: full, nothing written. -/
theorem test_push_full_drops :
    let t := got (exec (.push 1) (at4 0 1))
    t.stor = [] ∧ t.wcur = 0 ∧ t.status = 0x00030042 := by decide

/-- V-ING-2: the second byte is the high byte. -/
theorem test_ingb_pair :
    let t := got (exec (.ingb true 0x12) (got (exec (.ingb false 0x34) (at8 0 0))))
    t.slot 0 = 0x1234 ∧ t.pendb = false ∧ t.pendlo = 0 ∧ t.status = 0x000100C0 := by decide

/-- V-ING-3: a chunk of one byte leaves no trace. -/
theorem test_ingb_odd_byte : got (exec (.ingb true 0x55) (at8 0 0)) = at8 0 0 := by decide

/-- V-ING-4: a pending byte is discarded. -/
theorem test_inge : got (exec .inge (got (exec (.ingb false 0x7F) (at8 0 0)))) = at8 0 0 := by decide

/-- V-ADVR-6: RCUR passes WCUR unchecked. -/
theorem test_advr_past : let t := got (exec (.advr 6) (at8 5 0)); t.rcur = 6 ∧ t.count = 7 ∧ t.isFull = true := by decide

/-- V-ADVR-12: N = CAP = 65536 needs all 17 bits and is the identity. -/
theorem test_advr_cap : (got (exec (.advr 65536) (State.resetWith pMax))).rcur = 0 := by decide

/-- V-ARM-1. -/
theorem test_arm :
    let t := got (exec .arm (at8 3 3))
    t.xsrc = 3 ∧ t.xlen = 8 ∧ t.xcnt = 0 ∧ t.status = 0x00000005 := by decide

/-- V-ARM-3: refused while a transfer is in flight, and nothing else changes. -/
theorem test_arm_refused : got (exec .arm (lap4 0 2)) = { lap4 0 2 with badcmd := true } := by decide

/-- V-NOP-1 with a byte pending (V-ING-12). -/
theorem test_nop : got (exec .nop ((at8 0 0).setPending 0x34)) = (at8 0 0).setPending 0x34 := by decide

/-- V-ILL-2: the nearest legal command does not run. -/
theorem test_ill : got (runCommand 0x10010000 (at8 0 0)) = { at8 0 0 with badcmd := true } := by decide

/-! ### Engine, sink, bus, reset -/

/-- V-FETCH-3: the slot index wraps, the word carries the sample twice, the completion signal rises. -/
theorem test_fetch_last :
    let t := engineTurn { lap4 2 3 with stor := [(1, 0xFFFE)] }
    t.sfifo = [0xFFFEFFFE] ∧ t.xcnt = 4 ∧ t.phase = .cAck ∧ t.status.extractLsb' 2 4 = 0b1010 := by decide

/-- V-HDL-1 to V-HDL-3, for CAP = 4. -/
theorem test_handler :
    engineTurn (done4 .cAck 3) = done4 .cAdv 3 ∧ engineTurn (done4 .cAdv 3) = done4 .cRearm 3 ∧
    engineTurn (done4 .cRearm 3) = lap4 3 0 := by decide

/-- V-CONS-1. -/
theorem test_consume :
    let t := sinkTurn { at8 0 0 with sfifo := [0x00010001, 0x00020002] }
    t.out = [0x00010001] ∧ t.sfifo = [0x00020002] := by decide

/-- V-REG-1, read through the bus: the byte lanes are little-endian. -/
theorem test_read_status :
    (got (takeEvent (.host (.read 0x104 4))
      { at8 5 0 with phase := .armed, xlen := 8, lpv := true, lpok := true })).replies = [[0xC4, 0x00, 0x05, 0x00]] := by
  decide

/-- V-REG-6: COUNT fills its 16 bits. -/
theorem test_status_max : ({ State.resetWith pMax with wcur := 65535 } : State).status = 0xFFFF0002 := by decide

/-- R101: two samples of `ingest16`, low byte first; hand calculation. -/
theorem test_assemble_ingest16 :
    (AsmStmt.ingest16 [0x1234, -2]).words = some [0x20000034, 0x20000012, 0x200000FE, 0x200001FF] := by decide

/-- V-REG-10: a narrow write to CMD executes nothing. -/
theorem test_narrow_write : got (takeEvent (.host (.write 0x103 [0x10])) (at8 0 0)) = at8 0 0 := by decide

/-- V-RST-1 in part: the RBC's registers go to their reset values, the sink stays. -/
theorem test_reset :
    let t := got (takeEvent .reset { done4 .cRearm 1 with badcmd := true, sfifo := [7, 8], out := [6] })
    t.status = 1 ∧ t.xlen = 0 ∧ t.sfifo = [7, 8] ∧ t.out = [6] := by decide

/-- A word placed for the next step runs at it, right after reset. -/
theorem test_placed_word : (got (step (State.reset.withFetchWord 32 0x10001234))).stor = [(0, 0x1234)] := by decide

/-- R100, R101: `ingest 1, 0x02 ; c` is two words. -/
theorem test_assemble_line :
    assembleText ['i', 'n', 'g', 'e', 's', 't', ' ', '1', ',', ' ', '0', 'x', '0', '2', ' ', ';', ' ', 'c'] =
      some [0x20000001, 0x20000102] := by decide

/-- R100: `push -1` is 0x1000FFFF (V-PUSH-5), and `push 65536` is an assembly error. -/
theorem test_assemble_push :
    assembleLine ['p', 'u', 's', 'h', ' ', '-', '1'] = some [0x1000FFFF] ∧
    assembleLine ['p', 'u', 's', 'h', ' ', '6', '5', '5', '3', '6'] = none := by decide

/-! ### Every statement's hypotheses are met

One theorem for each statement with hypotheses, named after it; where a statement has several clauses, a witness of each at
a boundary of its range. A statement with a hypothesis `takeEvent e s = .next t` is met where `completes (takeEvent e s)`. -/

theorem witness_DecodeOfEncodeIsIdentity : (Instr.advr 131071).wf = true ∧ (Instr.push 0xFFFF).wf = true := by decide

theorem witness_EncodeOfDecodeIsIdentity : decode 0x4001FFFF = .cmd (.advr 131071) := by decide

theorem witness_IllFormedWordsSetBadcmd : decode 0x10010000 = .ill := by decide

theorem witness_OpcodeMapSelectsOneRow :
    (0x1000FFFF : Word) &&& rowMask (.push 0) = rowMatch (.push 0) ∧
    (0x1000FFFF : Word) &&& rowMask (.push 1) = rowMatch (.push 1) := by decide

theorem witness_PseudoInstructionsExpand :
    (∀ v ∈ [0, 255] ++ [7], (0 : Int) ≤ v ∧ v ≤ 255) ∧ ([-32768, 65535] : List Int) ≠ [] ∧
    ∀ v ∈ [-32768, 65535], (-32768 : Int) ≤ v ∧ v ≤ 65535 := by decide

theorem witness_StepTakesNextEvent :
    ({ at4 0 0 with sched := [.sink] } : State).sched = .sink :: [] ∧ (at4 0 0).sched = [] := by decide

theorem witness_StepRunsDecodedCommand :
    ((at4 0 0).withCommand 0x10001234).sched = .host (.write (at4 0 0).params.base [0x34, 0x12, 0x00, 0x10]) :: [] ∧
    decode ((0x10 : Byte) ++ (0x00 : Byte) ++ (0x12 : Byte) ++ (0x34 : Byte)) = .cmd (.push 0x1234) ∧
    decode ((0x60 : Byte) ++ (0x00 : Byte) ++ (0x00 : Byte) ++ (0x00 : Byte)) = .ill := by decide

theorem witness_PlacedWordRunsNext : decodeTableWord 32 0x50000000 = some .arm := by decide

theorem witness_StepKeepsParameters : completes (step { at4 0 0 with sched := [.reset] }) = true := by decide

theorem witness_BufferPredicatesAgree :
    (at4 3 0).wcur.toNat < p4.cap ∧ (at4 3 0).rcur.toNat < p4.cap ∧ (at4 3 0).isFull = true ∧
    (at4 3 3).isEmpty = true := by decide

theorem witness_PowerOfTwoCapacityUsesAnd : p4.cap = 2 ^ 2 ∧ pMax.cap = 2 ^ 16 := by decide

theorem witness_StorageReadAfterWrite :
    3 < (at4 0 0).params.cap ∧ (at4 0 0).params.cap ≤ 4 ∧ (at4 0 0).stor.wf p4.cap = true := by decide

theorem witness_PushWritesOrDrops :
    (at4 3 0).wcur.toNat < p4.cap ∧ (3 + 1) % p4.cap = (at4 3 0).rcur.toNat ∧
    (3 + 1) % p4.cap ≠ (at4 3 1).rcur.toNat ∧ (at4 3 1).rcur.toNat < p4.cap := by decide

theorem witness_PushKeepsStoredSamples :
    (at4 3 0).wcur.toNat < p4.cap ∧ (at4 3 0).rcur.toNat < p4.cap ∧ 2 < (at4 3 0).count ∧ (at4 3 0).isFull = true := by
  decide

theorem witness_AdvrMovesReadCursor : (at4 3 0).phase = .idle ∧ (lap4 0 1).phase ≠ .idle := by decide

/-- COUNT = 5 and CAP = 8: N = 5, 6, 7 and 8 are the ends of the three cases. -/
theorem witness_AdvanceFreesSlots :
    (at8 5 0).phase = .idle ∧ (at8 5 0).wcur.toNat < p8.cap ∧ (at8 5 0).rcur.toNat < p8.cap ∧
    5 ≤ (at8 5 0).count ∧ (at8 5 0).count < 6 ∧ 7 < p8.cap ∧ 8 = p8.cap := by decide

theorem witness_EmptyBufferTakesCapMinusOne :
    (at4 3 3).wcur.toNat < p4.cap ∧ (at4 3 3).rcur.toNat < p4.cap ∧ (at4 3 3).isEmpty = true ∧
    ([1, 2, 3] : List Sample).length = p4.cap - 1 ∧ 0 < 1 ∧ 3 ≤ ([1, 2, 3] : List Sample).length ∧
    ([4] : List Sample) ≠ [] := by decide

theorem witness_PushesFillConsecutiveSlots :
    (at4 3 2).wcur.toNat < p4.cap ∧ (at4 3 2).rcur.toNat < p4.cap ∧
    ([1, 2] : List Sample).length ≤ (at4 3 2).free ∧ 1 < ([1, 2] : List Sample).length := by decide

theorem witness_IngbTakesOneByte :
    (at4 0 0).pendb = false ∧ ((at4 3 0).setPending 0x34).pendb = true ∧
    ((at4 3 0).setPending 0x34).wcur.toNat < p4.cap := by decide

theorem witness_ChunkWritesItsSamples :
    (at4 0 0).pendb = false ∧ (at4 0 0).pendlo = 0 ∧ 1 < ([1, 2, 3, 4, 5] : List Byte).length / 2 ∧
    completes (execAll (chunkCommands [1, 2, 3, 4, 5]) (at4 0 0)) = true := by decide

/-- A chunk of three bytes with a Sink turn and a read among its commands: before the second k is 1. -/
theorem witness_InterleavedChunkWritesItsSamples :
    let es := [.host (.write 0x100 [1, 0, 0, 0x20]), .sink, .host (.write 0x100 [2, 0, 0, 0x20]),
      .host (.read 0x104 4), .host (.write 0x100 [3, 1, 0, 0x20])]
    (at4 0 0).pendb = false ∧ (at4 0 0).pendlo = 0 ∧ (at4 0 0).wcur.toNat < p4.cap ∧ (∀ e ∈ es, e ≠ .reset) ∧
    commandWords p4 es = (chunkCommands [1, 2, 3]).map encode ∧ commandOf p4 .sink = none ∧
    (commandWords p4 (es.take 2)).length = 1 ∧ (commandWords p4 (es.take 4)).length = 2 ∧
    completes (takeEvents es (at4 0 0)) = true := by decide

theorem witness_FiveBytesMakeTwoSamples : (at4 0 0).pendb = false ∧ (at4 0 0).pendlo = 0 := by decide

theorem witness_CommandsThatStoreNothing : Instr.advr 3 = .nop ∨ Instr.advr 3 = .inge ∨ (∃ n, Instr.advr 3 = .advr n) ∨
    Instr.advr 3 = .arm := .inr (.inr (.inl ⟨3, rfl⟩))

theorem witness_BadcmdIsSticky :
    Event.engine ≠ .reset ∧ completes (takeEvent .engine { lap4 0 1 with badcmd := true }) = true ∧
    ({ lap4 0 1 with badcmd := true } : State).badcmd = true := by decide

theorem witness_CommandExecutesOrIsRefused :
    decode 0x60000000 = .ill ∧ ((lap4 0 1).phase ≠ .idle ∧ decode 0x50000000 = .cmd .arm) ∧
    decode 0x10000001 = .cmd (.push 1) ∧ completes (runCommand 0x10000001 (lap4 0 1)) = true ∧
    (lap4 0 1).badcmd = false := by decide

theorem witness_ArmStartsFullLap : (at4 3 3).phase = .idle ∧ (done4 .cAck 3).phase ≠ .idle := by decide

theorem witness_FetchSendsOneWord :
    (lap4 2 3).phase = .armed ∧ (lap4 2 3).xcnt.toNat < (lap4 2 3).xlen.toNat ∧
    ({ lap4 2 3 with sfifo := [7] } : State).sfifo.length < p4.sinkDepth := by decide

theorem witness_EngineWaitsForRoom :
    (lap4 2 3).phase = .armed ∧ p4.sinkDepth ≤ ({ lap4 2 3 with sfifo := [7, 8] } : State).sfifo.length := by decide

theorem witness_LapReadsEverySlotOnce : 3 < (lap4 2 0).params.cap ∧ fetchIndex ((lap4 2 0).setXcnt (BitVec.ofNat 17 1)) = 3 := by decide

theorem witness_HandlerStepsDoTheirWork :
    (done4 .cAck 3).phase = .cAck ∧ (done4 .cAdv 3).phase = .cAdv ∧ (done4 .cRearm 3).phase = .cRearm ∧
    (done4 .cAdv 3).rcur.toNat < p4.cap ∧ (done4 .cAdv 3).xlen.toNat = p4.cap := by decide

theorem witness_RearmAfterCompletion :
    Inv (done4 .cAck 3) ∧ (done4 .cAck 3).phase = .cAck ∧
    ∀ e ∈ [Event.sink] ++ [Event.host (.read 0x104 4)] ++ [], e ≠ .engine ∧ e ≠ .reset := by decide

theorem witness_PhaseTransitions :
    completes (takeEvent .engine (lap4 0 3)) = true ∧ completes (takeEvent .engine (at4 0 0)) = true ∧
    (at4 0 0).phase = .idle := by decide

theorem witness_OneEngineStepEnabled :
    EngineStep.fetch.enabled (lap4 0 3) = true ∧ EngineStep.fetch.enabled (at4 0 0) = false ∧
    EngineStep.ack.enabled (at4 0 0) = false ∧ EngineStep.adv.enabled (at4 0 0) = false ∧
    EngineStep.rearm.enabled (at4 0 0) = false := by decide

theorem witness_ConsumePlaysOldestWord :
    ({ at4 0 0 with sfifo := [7, 8] } : State).sfifo = 7 :: [8] ∧ (at4 0 0).sfifo = [] := by decide

theorem witness_SinkStreamIsFifo :
    completes (takeEvent .engine (lap4 0 0)) = true ∧ completes (takeEvent .sink { lap4 0 0 with sfifo := [7] }) = true := by
  decide

theorem witness_FullLapPlaysRing :
    Inv (lap4 2 0) ∧ (lap4 2 0).phase = .armed ∧ (lap4 2 0).xcnt = 0 ∧ (lap4 2 0).sfifo = [] ∧
    ∀ e ∈ [Event.engine, .sink, .host (.read 0x104 4)], e ≠ .reset ∧ commandOf p4 e = none := by decide

/-- The FIFO is full of older words; the pushes are bytes on the bus, with a Sink turn and a read among them. -/
theorem witness_RoundTripPlaysSamplesInOrder :
    let s := { at4 3 3 with sfifo := [7, 8] }
    let es := [.host (.write 0x100 [1, 0, 0, 0x10]), .sink, .host (.read 0x104 4), .host (.write 0x100 [2, 0, 0, 0x10]),
      .host (.write 0x100 [3, 0, 0, 0x10]), .host (.write 0x100 [0, 0, 0, 0x50])]
    let fs := [Event.engine, .host (.write 0x100 [9, 0, 0, 0x10])]
    Inv s ∧ s.phase = .idle ∧ s.isEmpty = true ∧ ([1, 2, 3] : List Sample).length ≤ p4.cap - 1 ∧
    (∀ e ∈ es ++ fs, e ≠ .reset) ∧
    commandWords p4 es = (([1, 2, 3] : List Sample).map Instr.push ++ [Instr.arm]).map encode := by decide

theorem witness_ReadCursorFixedAfterArm :
    Inv { lap4 0 1 with wcur := 3 } ∧ (lap4 0 1).phase ≠ .idle ∧
    (∀ e ∈ [Event.engine, .sink], e ≠ .reset) ∧
    completes (takeEvents [.engine, .sink] { lap4 0 1 with wcur := 3 }) = true ∧
    ({ lap4 0 1 with wcur := 3 } : State).isFull = true := by decide

theorem witness_ProducerConsumerRace :
    (lap4 0 0).phase = .armed ∧ (lap4 0 0).xcnt.toNat < (lap4 0 0).xlen.toNat ∧
    (lap4 0 0).sfifo.length < p4.sinkDepth ∧ (lap4 0 0).isFull = false ∧ (lap4 0 0).wcur.toNat < p4.cap ∧
    ((lap4 0 0).xsrc.toNat + (lap4 0 0).xcnt.toNat) % p4.cap = (lap4 0 0).wcur.toNat := by decide

/-- A schedule in which the Engine and the Sink take turns. -/
def alternate (n : Nat) : Event := if n % 2 = 0 then .engine else .sink

theorem witness_CompletionInfinitelyOften :
    Inv (lap4 2 0) ∧ (lap4 2 0).phase ≠ .idle ∧ (∀ n, alternate n ≠ .reset) ∧
    WeaklyFair alternate (lap4 2 0) .engine engineEnabled ∧ WeaklyFair alternate (lap4 2 0) .sink consumeEnabled := by
  refine ⟨by decide, by decide, fun n => ?_, fun n _ => ⟨2 * n, by omega, ?_⟩, fun n _ => ⟨2 * n + 1, by omega, ?_⟩⟩
  · unfold alternate; split <;> simp
  · simp [alternate]
  · simp [alternate, show (2 * n + 1) % 2 = 1 by omega]

theorem witness_StalledSinkHangsEngine :
    Inv { lap4 2 0 with sfifo := [7, 8] } ∧ (lap4 2 0).phase = .armed ∧
    ({ lap4 2 0 with sfifo := [7, 8] } : State).sfifo.length = p4.sinkDepth ∧
    ∀ e ∈ [Event.engine, .host (.read 0x104 4)], e ≠ .sink ∧ e ≠ .reset := by decide

theorem witness_AgentsWriteOnlyTheirState :
    completes (takeEvent .engine (lap4 0 0)) = true ∧ completes (takeEvent .sink (lap4 0 0)) = true ∧
    completes (takeEvent (.host (.write 0x100 [1, 0, 0, 0x10])) (lap4 0 0)) = true ∧ (lap4 0 0).phase ≠ .idle ∧
    completes (takeEvent (.host (.write 0x100 [0, 0, 0, 0x50])) (at4 0 0)) = true ∧ (at4 0 0).phase = .idle := by decide

/-- Offsets 0x1C and 0x20 are the last register's and the first reserved one's. -/
theorem witness_RegisterReads : 7 < 64 ∧ 8 ≤ 8 ∧ 63 < 64 ∧ 4 * 7 = 0x1C ∧ 4 * 63 = 0xFC := by decide

theorem witness_OtherAccessesChangeNothing :
    ¬(([0x10] : List Byte).length = 4 ∧ 0x103 = (at4 0 0).params.base) ∧
    (0 < 1 ∧ (at4 0 0).params.base ≤ 0x1FF ∧ 0x1FF < (at4 0 0).params.base + 0x100 ∧ 1 ≠ 4) ∧
    (0 < 4 ∧ (at4 0 0).params.base ≤ 0x106 ∧ 0x106 < (at4 0 0).params.base + 0x100 ∧
      (0x106 - (at4 0 0).params.base) % 4 ≠ 0) ∧
    0xFC + 4 ≤ (at4 0 0).params.base ∧ (at4 0 0).params.base + 0x100 ≤ 0x200 := by decide

theorem witness_ByteLanes : 7 < 8 := by decide

theorem witness_InvariantKeptByStep :
    Inv { lap4 2 3 with sched := [.engine] } ∧ completes (step { lap4 2 3 with sched := [.engine] }) = true := by decide

theorem witness_StepNeverStops : Inv (done4 .cRearm 3) ∧ Inv ((at8 7 0).setPending 0x34) := ⟨by decide, by decide⟩

end Sys2Proof.Tests
end

section
/-! PROOFS. The scope's statements (spec/00_scope.md): the parameters R6 are constants of every run, the derived predicates
of R13 agree, and the modular cursor computation of R8 is AND where CAP is a power of two. -/

namespace Sys2Proof.Machine

/-! ### Parameters: each agent's turn keeps them -/

@[simp] theorem State.stored_params (s : State) (v : Sample) : (s.stored v).params = s.params := rfl

@[simp] theorem advanceRead_params (n : Nat) (s : State) : (advanceRead n s).params = s.params := rfl

theorem tryWrite_params {v : Sample} {s t : State} (h : tryWrite v s = .next t) : t.params = s.params := by
  obtain ⟨_, rfl⟩ | ⟨_, _, rfl⟩ := tryWrite_cases h
  · exact State.setResult_params s false
  · exact State.stored_params s v

theorem exec_params {i : Instr} {s t : State} (h : exec i s = .next t) : t.params = s.params := by
  obtain rfl | ⟨_, rfl⟩ | ⟨b, _, rfl⟩ | rfl | ⟨n, _, _, rfl⟩ | ⟨_, _, rfl⟩ | ⟨v, hv⟩ | ⟨v, hv⟩ := exec_cases h
  · rfl
  · exact State.setBadcmd_params s
  · exact State.setPending_params s b
  · exact State.clearPending_params s
  · exact advanceRead_params n s
  · exact State.armTransfer_params s _ _
  · exact tryWrite_params hv
  · exact (tryWrite_params hv).trans (State.clearPending_params s)

theorem runCommand_params {w : Word} {s t : State} (h : runCommand w s = .next t) : t.params = s.params := by
  obtain ⟨i, _, hi⟩ | ⟨_, rfl⟩ := runCommand_cases h
  · exact exec_params hi
  · exact State.setBadcmd_params s

theorem busAccess_params {a : Access} {s t : State} (h : busAccess a s = .next t) : t.params = s.params := by
  obtain rfl | ⟨bytes, rfl⟩ | ⟨bytes, _, _, hw⟩ := busAccess_cases h
  · rfl
  · exact State.reply_params s bytes
  · exact runCommand_params hw

@[simp] theorem engineTurn_params (s : State) : (engineTurn s).params = s.params := by
  obtain ⟨_, h⟩ | ⟨_, _, _, h⟩ | ⟨_, h⟩ | ⟨_, h⟩ | ⟨_, h⟩ := engineTurn_cases s
  · rw [h]
  · rw [h, stepFetch_eq]
  · rw [h, stepAck, State.setPhase_params]
  · rw [h, stepAdv, State.setPhase_params, advanceRead_params]
  · rw [h, stepRearm, State.returnFromHandler, State.armTransfer_params]

@[simp] theorem sinkTurn_params (s : State) : (sinkTurn s).params = s.params := by
  obtain ⟨_, h⟩ | ⟨w, rest, _, h⟩ := sinkTurn_cases s <;> rw [h]

/-- No event changes a parameter: the agents of R20 and reset (R260) write none. -/
theorem takeEvent_params {e : Event} {s t : State} (h : takeEvent e s = .next t) : t.params = s.params := by
  cases e with
  | host a => exact busAccess_params h
  | engine => cases h; exact engineTurn_params s
  | sink => cases h; exact sinkTurn_params s
  | reset => cases h; exact State.applyReset_params s

@[simp] theorem nextEvent_params (s : State) : (nextEvent s).2.params = s.params := by
  obtain ⟨sched, tick, h⟩ := nextEvent_state s
  rw [h]

/-- Settles O11: choosing the next event keeps the parameters, and so does taking it. -/
theorem stepKeepsParameters : Obligations.StepKeepsParameters := by
  intro s t h
  rw [step_eq] at h
  exact (takeEvent_params h).trans (nextEvent_params s)

/-! ### The derived predicates of R13 -/

/-- COUNT is the signed difference of the cursors modulo CAP, which is never negative. -/
theorem State.count_cast (s : State) :
    (s.count : Int) = ((s.wcur.toNat : Int) - (s.rcur.toNat : Int)) % (s.params.cap : Int) :=
  Int.toNat_of_nonneg (Int.emod_nonneg _ (by have := s.params.cap_pos; omega))

theorem State.isEmpty_iff_count {s : State} (hw : s.wcur.toNat < s.params.cap) (hr : s.rcur.toNat < s.params.cap) :
    s.isEmpty = true ↔ s.count = 0 := by
  rw [State.isEmpty_iff, State.count_eq hw hr]
  split <;> omega

theorem State.isFull_iff_count {s : State} (hw : s.wcur.toNat < s.params.cap) (hr : s.rcur.toNat < s.params.cap) :
    s.isFull = true ↔ s.count = s.params.cap - 1 := by
  rw [State.isFull_iff, succ_mod_cap hw, State.count_eq hw hr]
  split <;> split <;> omega

/-- One slot stays reserved: COUNT is at most CAP - 1, so no slot is free only where COUNT reaches it. -/
theorem State.free_eq_zero_iff (s : State) : s.free = 0 ↔ s.count = s.params.cap - 1 := by
  have hlt := s.count_lt
  unfold State.free
  omega

/-- Settles O12: the defining expressions, and for cursors in range FULL and EMPTY read off COUNT. -/
theorem bufferPredicatesAgree : Obligations.BufferPredicatesAgree := by
  intro s
  refine ⟨State.isEmpty_iff, State.isFull_iff, s.count_cast, rfl, fun hw hr => ?_⟩
  have hfull := State.isFull_iff_count hw hr
  exact ⟨hfull, hfull.trans s.free_eq_zero_iff.symm, State.isEmpty_iff_count hw hr⟩

/-! ### Cursors modulo a power of two -/

/-- Settles O13: the cursor is the exact sum modulo CAP, and modulo `2 ^ k` is AND with `2 ^ k - 1`. -/
theorem powerOfTwoCapacityUsesAnd : Obligations.PowerOfTwoCapacityUsesAnd := by
  intro p k hk x n
  rw [wrapAdd_toNat, hk, Nat.and_two_pow_sub_one_eq_mod]

end Sys2Proof.Machine
end

section
/-! PROOFS. The state's statements (spec/10_state.md): a slot write (R21), the invariant of R36 at reset, along every step and
in every reachable state, the agent that may write each element (R20, R30), STATUS (R38) and the values after reset (R39). -/

namespace Sys2Proof.Machine

/-! ### The invariant: each operation keeps it -/

theorem inv_setBadcmd {s : State} (h : Inv s) : Inv s.setBadcmd := h

theorem inv_reply {s : State} (h : Inv s) (bytes : List Byte) : Inv (s.reply bytes) := h

theorem inv_nextEvent {s : State} (h : Inv s) : Inv (nextEvent s).2 := by
  obtain ⟨sched, tick, hn⟩ := nextEvent_state s
  rw [hn]
  exact h

theorem inv_setPending {s : State} (h : Inv s) (b : Byte) : Inv (s.setPending b) := by
  obtain ⟨hcur, htr, ⟨_, hres⟩, hsink, hmem⟩ := h
  exact ⟨hcur, htr, ⟨nofun, hres⟩, hsink, hmem⟩

theorem inv_clearPending {s : State} (h : Inv s) : Inv s.clearPending := by
  obtain ⟨hcur, htr, ⟨_, hres⟩, hsink, hmem⟩ := h
  exact ⟨hcur, htr, ⟨fun _ => rfl, hres⟩, hsink, hmem⟩

theorem inv_setResult {s : State} (h : Inv s) (ok : Bool) : Inv (s.setResult ok) := by
  obtain ⟨hcur, htr, ⟨hpend, _⟩, hsink, hmem⟩ := h
  exact ⟨hcur, htr, ⟨hpend, nofun⟩, hsink, hmem⟩

/-- A stored sample moves WCUR modulo CAP and lists the slot it was written to. -/
theorem inv_stored {s : State} (h : Inv s) (v : Sample) : Inv (s.stored v) := by
  obtain ⟨⟨hw, hr, hx⟩, htr, ⟨hpend, _⟩, hsink, hmem⟩ := h
  exact ⟨⟨wrapAdd_lt s.params s.wcur 1, hr, hx⟩, htr, ⟨hpend, nofun⟩, hsink, Memory.wf_put s.stor v hw hmem⟩

theorem inv_tryWrite {v : Sample} {s t : State} (hs : Inv s) (h : tryWrite v s = .next t) : Inv t := by
  obtain ⟨_, rfl⟩ | ⟨_, _, rfl⟩ := tryWrite_cases h
  · exact inv_setResult hs false
  · exact inv_stored hs v

/-- In IDLE no transfer starts at RCUR, so moving it breaks no line of R36. -/
theorem inv_advanceRead_of_idle {s : State} (h : Inv s) (hp : s.phase = .idle) (n : Nat) : Inv (advanceRead n s) := by
  obtain ⟨⟨hw, _, hx⟩, htr, hdec, hsink, hmem⟩ := h
  refine ⟨⟨hw, wrapAdd_lt s.params s.rcur n, hx⟩, ?_, hdec, hsink, hmem⟩
  rw [transferOk_iff, hp] at htr
  rw [transferOk_iff]
  simpa [advanceRead, hp] using htr

/-- A full lap armed at RCUR, by ARM or REARM, starts a transfer in its place. -/
theorem inv_armTransfer {s : State} (h : Inv s) : Inv (s.armTransfer s.rcur (capCount s.params)) := by
  obtain ⟨⟨hw, hr, _⟩, _, hdec, hsink, hmem⟩ := h
  refine ⟨⟨hw, hr, hr⟩, ?_, hdec, hsink, hmem⟩
  rw [transferOk_iff]
  exact ⟨rfl, s.params.cap_pos, rfl⟩

theorem inv_exec {i : Instr} {s t : State} (hs : Inv s) (h : exec i s = .next t) : Inv t := by
  obtain rfl | ⟨_, rfl⟩ | ⟨b, _, rfl⟩ | rfl | ⟨n, _, hp, rfl⟩ | ⟨_, _, rfl⟩ | ⟨v, hv⟩ | ⟨v, hv⟩ := exec_cases h
  · exact hs
  · exact inv_setBadcmd hs
  · exact inv_setPending hs b
  · exact inv_clearPending hs
  · exact inv_advanceRead_of_idle hs hp n
  · exact inv_armTransfer hs
  · exact inv_tryWrite hs hv
  · exact inv_tryWrite (inv_clearPending hs) hv

theorem inv_runCommand {w : Word} {s t : State} (hs : Inv s) (h : runCommand w s = .next t) : Inv t := by
  obtain ⟨i, _, hi⟩ | ⟨_, rfl⟩ := runCommand_cases h
  · exact inv_exec hs hi
  · exact inv_setBadcmd hs

theorem inv_busAccess {a : Access} {s t : State} (hs : Inv s) (h : busAccess a s = .next t) : Inv t := by
  obtain rfl | ⟨bytes, rfl⟩ | ⟨bytes, _, _, hw⟩ := busAccess_cases h
  · exact hs
  · exact inv_reply hs bytes
  · exact inv_runCommand hs hw

/-- A count below XLEN has a successor in its field (D5). -/
theorem xcnt_succ_toNat {s : State} (h : s.xcnt.toNat < s.xlen.toNat) : (s.xcnt + 1).toNat = s.xcnt.toNat + 1 := by
  have hlt := s.xlen.isLt
  rw [BitVec.toNat_add]
  exact Nat.mod_eq_of_lt (by change s.xcnt.toNat + 1 < 2 ^ 17; omega)

/-- The count stays below CAP, or it has reached CAP and the completion signal is up; the word had room in SFIFO. -/
theorem inv_stepFetch {s : State} (h : Inv s) (hp : s.phase = .armed) (hlt : s.xcnt.toNat < s.xlen.toNat)
    (hroom : s.sinkHasRoom = true) : Inv (stepFetch s) := by
  obtain ⟨hcur, htr, hdec, _, hmem⟩ := h
  have hnext := xcnt_succ_toNat hlt
  rw [transferOk_iff, hp] at htr
  obtain ⟨hlen, _, hsrc⟩ := htr
  rw [stepFetch_eq]
  refine ⟨hcur, ?_, hdec, ?_, hmem⟩
  · rw [transferOk_iff]
    by_cases hlast : s.xcnt + 1 = s.xlen
    · simp only [if_pos hlast]
      exact ⟨hlen, hlast.trans hlen, hsrc⟩
    · have hcap : s.xlen.toNat = s.params.cap := by rw [hlen, capCount_toNat]
      have hne : (s.xcnt + 1).toNat ≠ s.xlen.toNat := fun heq => hlast (BitVec.eq_of_toNat_eq heq)
      have hbelow : (s.xcnt + 1).toNat < s.params.cap := by omega
      simp only [if_neg hlast, hp]
      exact ⟨hlen, hbelow, hsrc⟩
  · simpa [State.sinkHasRoom, SinkOk, Nat.succ_le_iff] using hroom

theorem inv_stepAck {s : State} (h : Inv s) (hp : s.phase = .cAck) : Inv (stepAck s) := by
  obtain ⟨hcur, htr, hdec, hsink, hmem⟩ := h
  refine ⟨hcur, ?_, hdec, hsink, hmem⟩
  rw [transferOk_iff, hp] at htr
  rw [transferOk_iff]
  exact htr

/-- Over a full lap ADV leaves RCUR where the transfer started (R179). -/
theorem inv_stepAdv {s : State} (h : Inv s) (hp : s.phase = .cAdv) : Inv (stepAdv s) := by
  obtain ⟨⟨hw, hr, hx⟩, htr, hdec, hsink, hmem⟩ := h
  rw [transferOk_iff, hp] at htr
  obtain ⟨hlen, hcnt, hsrc⟩ := htr
  have hsame : wrapAdd s.params.cap s.rcur s.xlen.toNat = s.rcur := by
    rw [hlen, capCount_toNat, wrapAdd_cap s.params hr]
  have hstep : stepAdv s = s.setPhase .cRearm := by rw [stepAdv, advanceRead, hsame]; rfl
  rw [hstep]
  refine ⟨⟨hw, hr, hx⟩, ?_, hdec, hsink, hmem⟩
  rw [transferOk_iff]
  exact ⟨hlen, hcnt, hsrc⟩

theorem inv_engineTurn {s : State} (hs : Inv s) : Inv (engineTurn s) := by
  obtain ⟨_, h⟩ | ⟨hp, hlt, hroom, h⟩ | ⟨hp, h⟩ | ⟨hp, h⟩ | ⟨_, h⟩ := engineTurn_cases s <;> rw [h]
  · exact hs
  · exact inv_stepFetch hs hp hlt hroom
  · exact inv_stepAck hs hp
  · exact inv_stepAdv hs hp
  · exact inv_armTransfer hs

theorem inv_sinkTurn {s : State} (hs : Inv s) : Inv (sinkTurn s) := by
  obtain ⟨_, h⟩ | ⟨w, rest, hf, h⟩ := sinkTurn_cases s <;> rw [h]
  · exact hs
  · obtain ⟨hcur, htr, hdec, hsink, hmem⟩ := hs
    have hshort : rest.length ≤ s.params.sinkDepth := by
      rw [SinkOk, hf, List.length_cons] at hsink
      omega
    exact ⟨hcur, htr, hdec, hshort, hmem⟩

/-! ### The invariant: at reset, along events, and of every reachable state -/

/-- With the values of R39 in its fields a state meets R36, if SFIFO and the storage list do. -/
theorem inv_of_reset_values {s : State} (hw : s.wcur = 0) (hr : s.rcur = 0) (hp : s.phase = .idle) (hx : s.xsrc = 0)
    (hl : s.xlen = 0) (hn : s.xcnt = 0) (hb : s.pendlo = 0) (hok : s.lpok = false) (hsink : SinkOk s)
    (hmem : s.stor.wf s.params.cap = true) : Inv s := by
  refine ⟨?_, ?_, ⟨fun _ => hb, fun _ => hok⟩, hsink, hmem⟩
  · simp [CursorsInRange, hw, hr, hx, s.params.cap_pos]
  · rw [transferOk_iff, hp]
    exact ⟨hl, hn, hx⟩

/-- Settles O54: the values of R39, an empty SFIFO and no slot listed. -/
theorem invariantAtReset : Obligations.InvariantAtReset := fun p =>
  inv_of_reset_values rfl rfl rfl rfl rfl rfl rfl rfl (Nat.zero_le _) (Memory.wf_reset p)

/-- A later reset keeps SFIFO and which slots are listed. -/
theorem inv_applyReset {s : State} (h : Inv s) : Inv s.applyReset := by
  obtain ⟨_, _, _, hsink, hmem⟩ := h
  have hlist : (s.stor.reinit (s.resets + 1)).wf s.params.cap = true := by rw [Memory.wf_reinit, hmem]
  exact inv_of_reset_values rfl rfl rfl rfl rfl rfl rfl rfl hsink hlist

theorem inv_takeEvent {e : Event} {s t : State} (hs : Inv s) (h : takeEvent e s = .next t) : Inv t := by
  cases e with
  | host a => exact inv_busAccess hs h
  | engine => cases h; exact inv_engineTurn hs
  | sink => cases h; exact inv_sinkTurn hs
  | reset => cases h; exact inv_applyReset hs

/-- Settles O55: choosing the next event keeps the invariant, and so does taking it. -/
theorem invariantKeptByStep : Obligations.InvariantKeptByStep := by
  intro s t hs h
  rw [step_eq] at h
  exact inv_takeEvent (inv_nextEvent hs) h

/-- Every event answers a next state wherever WCUR is in range. -/
theorem takeEvent_completes (e : Event) {s : State} (hw : s.wcur.toNat < s.params.cap) :
    ∃ t, takeEvent e s = .next t := by
  cases e with
  | host a => exact busAccess_completes a hw
  | engine => exact ⟨_, rfl⟩
  | sink => exact ⟨_, rfl⟩
  | reset => exact ⟨_, rfl⟩

/-- Events of any number answer a next state and keep the invariant. -/
theorem takeEvents_inv (es : List Event) {s : State} (hs : Inv s) : ∃ t, takeEvents es s = .next t ∧ Inv t := by
  induction es generalizing s with
  | nil => exact ⟨s, rfl, hs⟩
  | cons e es ih =>
    have ⟨⟨hw, _⟩, _⟩ := hs
    obtain ⟨u, hu⟩ := takeEvent_completes e hw
    obtain ⟨t, ht, hinv⟩ := ih (inv_takeEvent hs hu)
    exact ⟨t, by rw [takeEvents, hu, andThen_next, ht], hinv⟩

/-- Settles O56: the invariant holds at reset and every event keeps it. -/
theorem reachableStatesMeetInvariant : Obligations.ReachableStatesMeetInvariant := by
  intro p es
  obtain ⟨t, ht, hcur, htr, hdec, hsink, _⟩ := takeEvents_inv es (invariantAtReset p)
  exact ⟨t, ht, hcur, htr, hdec, hsink⟩

/-! ### A slot write -/

theorem State.writeSlot_of_lt {s : State} {i : Nat} (v : Sample) (h : i < s.params.cap) :
    s.writeSlot i v = .next { s with stor := s.stor.put i v } := if_pos h

theorem State.writeSlot_of_le {s : State} {i : Nat} (v : Sample) (h : s.params.cap ≤ i) :
    s.writeSlot i v = .fault .slotOutOfRange := if_neg (Nat.not_lt.mpr h)

theorem State.slot_put_same (s : State) (i : Nat) (v : Sample) :
    ({ s with stor := s.stor.put i v } : State).slot i = v := by
  simp [State.slot, Memory.lookup_put_same]

theorem State.slot_put_other (s : State) {i a : Nat} (v : Sample) (h : a ≠ i) :
    ({ s with stor := s.stor.put i v } : State).slot a = s.slot a := by
  simp [State.slot, Memory.lookup_put_other _ _ h]

/-- Settles O14: what the storage list reads after a `put`, and the guard of `writeSlot`. -/
theorem storageReadAfterWrite : Obligations.StorageReadAfterWrite := by
  intro s i v
  refine ⟨fun hi => ?_, State.writeSlot_of_le v⟩
  exact ⟨_, State.writeSlot_of_lt v hi, State.slot_put_same s i v, fun a ha => State.slot_put_other s v ha,
    Memory.wf_put s.stor v hi, rfl⟩

/-! ### BADCMD -/

theorem tryWrite_badcmd {v : Sample} {s t : State} (h : tryWrite v s = .next t) : t.badcmd = s.badcmd := by
  obtain ⟨_, rfl⟩ | ⟨_, _, rfl⟩ := tryWrite_cases h <;> rfl

/-- A command leaves BADCMD or sets it. -/
theorem exec_badcmd {i : Instr} {s t : State} (h : exec i s = .next t) : t.badcmd = s.badcmd ∨ t.badcmd = true := by
  obtain rfl | ⟨_, rfl⟩ | ⟨b, _, rfl⟩ | rfl | ⟨n, _, _, rfl⟩ | ⟨_, _, rfl⟩ | ⟨v, hv⟩ | ⟨v, hv⟩ := exec_cases h
  · exact .inl rfl
  · exact .inr rfl
  · exact .inl rfl
  · exact .inl rfl
  · exact .inl rfl
  · exact .inl rfl
  · exact .inl (tryWrite_badcmd hv)
  · exact .inl ((tryWrite_badcmd hv).trans s.clearPending_badcmd)

theorem busAccess_badcmd {a : Access} {s t : State} (h : busAccess a s = .next t) :
    t.badcmd = s.badcmd ∨ t.badcmd = true := by
  obtain rfl | ⟨bytes, rfl⟩ | ⟨bytes, _, _, hw⟩ := busAccess_cases h
  · exact .inl rfl
  · exact .inl rfl
  · obtain ⟨i, _, hi⟩ | ⟨_, rfl⟩ := runCommand_cases hw
    · exact exec_badcmd hi
    · exact .inr rfl

/-! ### What each agent may write -/

/-- The Engine writes RCUR, PHASE, the StreamingState and SFIFO at most (R20). -/
theorem engineTurn_frame (s : State) :
    { engineTurn s with
      rcur := s.rcur, phase := s.phase, xsrc := s.xsrc, xlen := s.xlen, xcnt := s.xcnt, sfifo := s.sfifo } = s := by
  obtain ⟨_, h⟩ | ⟨_, _, _, h⟩ | ⟨_, h⟩ | ⟨_, h⟩ | ⟨_, h⟩ := engineTurn_cases s <;> rw [h]
  · rw [stepFetch_eq]
  · rfl
  · rfl
  · rfl

/-- The Sink writes SFIFO and OUT at most (R20). -/
theorem sinkTurn_frame (s : State) : { sinkTurn s with sfifo := s.sfifo, out := s.out } = s := by
  obtain ⟨_, h⟩ | ⟨w, rest, _, h⟩ := sinkTurn_cases s <;> rw [h]

/-- Settles O28: the Engine and the Sink do not write BADCMD, and the Host's commands can only set it. -/
theorem badcmdIsSticky : Obligations.BadcmdIsSticky := by
  intro e s t hne h hs
  cases e with
  | host a =>
    obtain heq | hset := busAccess_badcmd h
    · rw [heq, hs]
    · exact hset
  | engine => cases h; exact (congrArg State.badcmd (engineTurn_frame s)).trans hs
  | sink => cases h; exact (congrArg State.badcmd (sinkTurn_frame s)).trans hs
  | reset => exact absurd rfl hne

/-- `t` differs from `s` at most in what the Host may write in every PHASE (R20): storage, WCUR, the decoder, LPV, LPOK,
BADCMD and the model's replies. -/
def HostFrame (s t : State) : Prop :=
  { t with
    stor := s.stor, wcur := s.wcur, pendb := s.pendb, pendlo := s.pendlo, lpv := s.lpv, lpok := s.lpok
    badcmd := s.badcmd, replies := s.replies } = s

/-- `t` differs from `s` at most in what the Host may write in IDLE (R20): also RCUR, PHASE and the StreamingState. -/
def IdleHostFrame (s t : State) : Prop :=
  HostFrame s { t with rcur := s.rcur, phase := s.phase, xsrc := s.xsrc, xlen := s.xlen, xcnt := s.xcnt }

theorem tryWrite_hostFrame {v : Sample} {s t : State} (h : tryWrite v s = .next t) : HostFrame s t := by
  obtain ⟨_, rfl⟩ | ⟨_, _, rfl⟩ := tryWrite_cases h <;> rfl

theorem HostFrame.idle {s t : State} (h : HostFrame s t) : IdleHostFrame s t := by
  have hput := congrArg
    (fun u : State => { u with rcur := s.rcur, phase := s.phase, xsrc := s.xsrc, xlen := s.xlen, xcnt := s.xcnt }) h
  exact hput

/-- Only ADVR and ARM in IDLE write more than the Host's own fields. -/
theorem exec_hostFrame {i : Instr} {s t : State} (h : exec i s = .next t) :
    HostFrame s t ∨ (s.phase = .idle ∧ IdleHostFrame s t) := by
  obtain rfl | ⟨_, rfl⟩ | ⟨b, _, rfl⟩ | rfl | ⟨n, _, hp, rfl⟩ | ⟨_, hp, rfl⟩ | ⟨v, hv⟩ | ⟨v, hv⟩ := exec_cases h
  · exact .inl rfl
  · exact .inl rfl
  · exact .inl rfl
  · exact .inl rfl
  · exact .inr ⟨hp, rfl⟩
  · exact .inr ⟨hp, rfl⟩
  · exact .inl (tryWrite_hostFrame hv)
  · obtain ⟨_, rfl⟩ | ⟨_, _, rfl⟩ := tryWrite_cases hv <;> exact .inl rfl

theorem busAccess_hostFrame {a : Access} {s t : State} (h : busAccess a s = .next t) :
    HostFrame s t ∨ (s.phase = .idle ∧ IdleHostFrame s t) := by
  obtain rfl | ⟨bytes, rfl⟩ | ⟨bytes, _, _, hw⟩ := busAccess_cases h
  · exact .inl rfl
  · exact .inl rfl
  · obtain ⟨i, _, hi⟩ | ⟨_, rfl⟩ := runCommand_cases hw
    · exact exec_hostFrame hi
    · exact .inl rfl

/-- Settles O47: the frame of the Engine's turn, of the Sink's and of a bus access. -/
theorem agentsWriteOnlyTheirState : Obligations.AgentsWriteOnlyTheirState := by
  intro s t
  refine ⟨fun h => ?_, fun h => ?_, fun a h hp => ?_, fun a h _ => ?_⟩
  · cases h; exact engineTurn_frame s
  · cases h; exact sinkTurn_frame s
  · obtain hf | ⟨hidle, _⟩ := busAccess_hostFrame h
    · exact hf
    · exact absurd hidle hp
  · obtain hf | ⟨_, hf⟩ := busAccess_hostFrame h
    · exact hf.idle
    · exact hf

/-! ### STATUS -/

/-- COUNT fits its 16 bits of STATUS. -/
theorem State.count_lt_two_pow (s : State) : s.count < 2 ^ 16 := by
  have hlt := s.count_lt
  have hcap := s.params.cap_le
  omega

/-- STATUS's fields are the parts its word is put together from. -/
theorem State.status_fields (s : State) :
    s.status.getLsbD 0 = s.isEmpty ∧ s.status.getLsbD 1 = s.isFull ∧ s.status.extractLsb' 2 3 = s.phase.code ∧
    s.status.getLsbD 5 = s.cpend ∧ s.status.getLsbD 6 = s.lpv ∧ s.status.getLsbD 7 = s.lpok ∧
    s.status.getLsbD 8 = s.pendb ∧ s.status.getLsbD 9 = s.badcmd ∧ s.status.extractLsb' 10 6 = 0 ∧
    s.status.extractLsb' 16 16 = BitVec.ofNat 16 s.count := by
  simp only [State.status, BitVec.getLsbD_append, BitVec.extractLsb'_append_eq_ite, Nat.reduceLT, Nat.reduceSub,
    reduceIte, reduceDIte]
  simp

/-- With cursors, PHASE and flags at their values of R39, STATUS reads 1: EMPTY alone. -/
theorem State.status_of_reset_values {s : State} (hw : s.wcur = 0) (hr : s.rcur = 0) (hp : s.phase = .idle)
    (hb : s.pendb = false) (hlv : s.lpv = false) (hok : s.lpok = false) (hbad : s.badcmd = false) : s.status = 1 := by
  have hcount : s.count = 0 := by simp [State.count, hw, hr]
  have hempty : s.isEmpty = true := by simp [State.isEmpty, hw, hr]
  have hfull : s.isFull = false := by
    have hmod : 1 % s.params.cap = 1 := Nat.mod_eq_of_lt s.params.two_le_cap
    simp [State.isFull, hw, hr, hmod]
  have hpend : s.cpend = false := by simp [State.cpend, hp]
  simp only [State.status, hpend, hp, hb, hlv, hok, hbad, hcount, hempty, hfull]
  decide

/-- Settles O48: each field of STATUS is the flag, PHASE's encoding or COUNT, and reads as the table says. -/
theorem statusFields : Obligations.StatusFields := by
  refine ⟨fun p => State.status_of_reset_values rfl rfl rfl rfl rfl rfl rfl, fun s => ?_⟩
  obtain ⟨hempty, hfull, hphase, hpend, hlpv, hlpok, hpendb, hbad, hreserved, hcount⟩ := s.status_fields
  refine ⟨?_, ?_, ?_, ?_, hlpv, hlpok, hpendb, hbad, hreserved, ?_⟩
  · rw [hempty]; rfl
  · rw [hfull]; rfl
  · rw [hphase]; cases s.phase <;> rfl
  · rw [hpend]; rfl
  · rw [hcount, BitVec.toNat_ofNat, Nat.mod_eq_of_lt s.count_lt_two_pow, State.count_cast]

/-! ### The values after reset -/

/-- Settles O52: no slot is listed, so each holds its power-up value, and with both cursors 0 COUNT is 0. -/
theorem stateAfterReset : Obligations.StateAfterReset := by
  intro p
  have hstatus : (State.resetWith p).status = 1 := State.status_of_reset_values rfl rfl rfl rfl rfl rfl rfl
  have hfree : (State.resetWith p).free = p.cap - 1 := by simp [State.free, State.count, State.resetWith]
  exact ⟨rfl, rfl, rfl, rfl, rfl, rfl, rfl, rfl, rfl, rfl, rfl, rfl, rfl, fun _ => rfl, hstatus, hfree⟩

end Sys2Proof.Machine
end

section
/-! PROOFS. The memory's statements (spec/20_memory.md): the byte order of R62, the sink stream of R68, one event per step
(R70) and the race of a PUSH and a FETCH (R74). -/

namespace Sys2Proof.Machine

/-! ### The byte order of R62 -/

/-- A list's first byte is the word's low byte. -/
theorem wordOfBytes_cons_low (b : Byte) (bs : List Byte) {j : Nat} (hj : j < 8) :
    (wordOfBytes (b :: bs)).getLsbD j = b.getLsbD j := by
  have hj32 : j < 32 := by omega
  simp [wordOfBytes, hj, hj32]

/-- The bytes after a list's first stand one byte higher in the word. -/
theorem wordOfBytes_cons_high (b : Byte) (bs : List Byte) {j : Nat} (hj : j < 24) :
    (wordOfBytes (b :: bs)).getLsbD (8 + j) = (wordOfBytes bs).getLsbD j := by
  have hj32 : 8 + j < 32 := by omega
  simp [wordOfBytes, -BitVec.getLsbD_eq_getElem, hj32]

/-- The first byte of a pair counts ones, the second one counts 256s (R62 item 1). -/
theorem sampleOf_toNat (hi lo : Byte) : (sampleOf hi lo).toNat = 256 * hi.toNat + lo.toNat := by
  rw [sampleOf, BitVec.toNat_append, ← Nat.shiftLeft_add_eq_or_of_lt lo.isLt, Nat.shiftLeft_eq, Nat.mul_comm]

/-- Settles O51: byte `k` is reached by going up one byte `k` times. -/
theorem byteLanes : Obligations.ByteLanes := by
  refine ⟨fun b0 b1 b2 b3 j hj => ⟨?_, ?_, ?_, ?_⟩, wordOfBytes_bytesOfWord, sampleOf_toNat⟩
  · exact wordOfBytes_cons_low b0 _ hj
  · rw [wordOfBytes_cons_high _ _ (by omega), wordOfBytes_cons_low b1 _ hj]
  · rw [show 16 + j = 8 + (8 + j) by omega, wordOfBytes_cons_high _ _ (by omega), wordOfBytes_cons_high _ _ (by omega),
      wordOfBytes_cons_low b2 _ hj]
  · rw [show 24 + j = 8 + (8 + (8 + j)) by omega, wordOfBytes_cons_high _ _ (by omega),
      wordOfBytes_cons_high _ _ (by omega), wordOfBytes_cons_high _ _ (by omega), wordOfBytes_cons_low b3 _ hj]

/-! ### The sink stream of R68 -/

/-- SFIFO and OUT are not among what the Host may write. -/
theorem HostFrame.sink {s t : State} (h : HostFrame s t) : t.sfifo = s.sfifo ∧ t.out = s.out := by
  have hsfifo := congrArg State.sfifo h
  have hout := congrArg State.out h
  exact ⟨hsfifo, hout⟩

theorem busAccess_sink {a : Access} {s t : State} (h : busAccess a s = .next t) :
    t.sfifo = s.sfifo ∧ t.out = s.out := by
  obtain hf | ⟨_, hf⟩ := busAccess_hostFrame h
  · exact hf.sink
  · have hidle := HostFrame.sink hf
    exact hidle

theorem engineTurn_out (s : State) : (engineTurn s).out = s.out := by
  have hout := congrArg State.out (engineTurn_frame s)
  exact hout

/-- Of the Engine's steps only FETCH writes SFIFO: one word at its end, where there is room. -/
theorem engineTurn_sfifo (s : State) :
    (engineTurn s).sfifo = s.sfifo ∨
    (s.sfifo.length < s.params.sinkDepth ∧ ∃ w, (engineTurn s).sfifo = s.sfifo ++ [w]) := by
  obtain ⟨_, h⟩ | ⟨_, _, hroom, h⟩ | ⟨_, h⟩ | ⟨_, h⟩ | ⟨_, h⟩ := engineTurn_cases s <;> rw [h]
  · exact .inl rfl
  · exact .inr ⟨by simpa [State.sinkHasRoom] using hroom, _, by rw [stepFetch_eq]⟩
  · exact .inl rfl
  · exact .inl rfl
  · exact .inl rfl

/-- The Sink moves SFIFO's oldest word to OUT's end or does nothing, so the two in sequence stay as they are. -/
theorem sinkTurn_stream (s : State) :
    s.out <+: (sinkTurn s).out ∧ (sinkTurn s).out ++ (sinkTurn s).sfifo = s.out ++ s.sfifo := by
  obtain ⟨_, h⟩ | ⟨w, rest, hf, h⟩ := sinkTurn_cases s <;> rw [h]
  · exact ⟨List.prefix_refl _, rfl⟩
  · exact ⟨List.prefix_append _ _, by rw [hf, List.append_assoc, List.singleton_append]⟩

/-- Settles O40: the Engine's turn alone lengthens the stream, the Sink's moves a word within it. -/
theorem sinkStreamIsFifo : Obligations.SinkStreamIsFifo := by
  intro e s t h
  cases e with
  | host a =>
    obtain ⟨hsfifo, hout⟩ := busAccess_sink h
    rw [hsfifo, hout]
    exact ⟨List.prefix_refl _, .inl rfl⟩
  | engine =>
    cases h
    rw [engineTurn_out]
    refine ⟨List.prefix_refl _, ?_⟩
    obtain hsame | ⟨hroom, w, hw⟩ := engineTurn_sfifo s
    · exact .inl (by rw [hsame])
    · exact .inr ⟨rfl, hroom, w, by rw [hw, List.append_assoc]⟩
  | sink =>
    cases h
    obtain ⟨hout, hstream⟩ := sinkTurn_stream s
    exact ⟨hout, .inl hstream⟩
  | reset =>
    cases h
    exact ⟨List.prefix_refl _, .inl rfl⟩

/-! ### One event per step (R70) -/

theorem nextEvent_scheduled {s : State} {e : Event} {rest : List Event} (h : s.sched = e :: rest) :
    nextEvent s = (e, { s with sched := rest }) := by
  simp [nextEvent, h]

theorem nextEvent_free {s : State} (h : s.sched = []) :
    nextEvent s = (Config.freeEvent s.tick, { s with tick := s.tick + 1 }) := by
  simp [nextEvent, h]

/-- Settles O8: a step takes the event chosen, which is the schedule's first or a free one. -/
theorem stepTakesNextEvent : Obligations.StepTakesNextEvent := by
  intro s
  refine ⟨fun e rest h => ?_, fun h => ?_⟩
  · rw [step_eq, nextEvent_scheduled h]
  · rw [step_eq, nextEvent_free h]

/-! ### A PUSH and a FETCH of one slot (R74) -/

/-- Where FETCH is enabled the Engine's turn is FETCH (R176). -/
theorem takeEvent_engine_fetch {s : State} (hp : s.phase = .armed) (hlt : s.xcnt.toNat < s.xlen.toNat)
    (hroom : s.sfifo.length < s.params.sinkDepth) : takeEvent .engine s = .next (stepFetch s) := by
  have henabled : EngineStep.fetch.enabled s = true := by simp [EngineStep.enabled, State.sinkHasRoom, hp, hlt, hroom]
  simp [takeEvent, engineTurn, engineCandidate, hp, henabled, EngineStep.run]

theorem stepFetch_sfifo (s : State) :
    (stepFetch s).sfifo = s.sfifo ++ [sinkWord (s.slot (fetchIndex s))] := by rw [stepFetch_eq]

/-- A FETCH leaves a PUSH what it found: the cursors, so FULL too, and the parameters. -/
theorem tryWrite_stepFetch (v : Sample) {s : State} (h : s.isFull = false) (hw : s.wcur.toNat < s.params.cap) :
    tryWrite v (stepFetch s) = .next ((stepFetch s).stored v) := by
  apply tryWrite_room
  · rw [stepFetch_eq]; exact h
  · rw [stepFetch_eq]; exact hw

/-- Settles O44: the PUSH writes slot WCUR, which the FETCH reads after it or before it. -/
theorem producerConsumerRace : Obligations.ProducerConsumerRace := by
  intro x s hp hlt hroom hfull hw hslot
  have hindex : fetchIndex s = s.wcur.toNat := hslot
  refine ⟨⟨s.stored x, stepFetch (s.stored x), ?_, ?_, ?_⟩, ⟨stepFetch s, (stepFetch s).stored x, ?_, ?_, ?_, ?_⟩⟩
  · exact tryWrite_room x hfull hw
  · exact takeEvent_engine_fetch (s := s.stored x) hp hlt hroom
  · have hsame : fetchIndex (s.stored x) = s.wcur.toNat := hindex
    rw [stepFetch_sfifo, hsame, State.stored_slot_same]
    rfl
  · exact takeEvent_engine_fetch hp hlt hroom
  · exact tryWrite_stepFetch x hfull hw
  · have hsent := stepFetch_sfifo s
    rw [hindex] at hsent
    exact hsent
  · have hwcur : (stepFetch s).wcur = s.wcur := by rw [stepFetch_eq]
    rw [← hwcur, State.stored_slot_same]

end Sys2Proof.Machine
end

section
/-! PROOFS. The encoding's statements (spec/30_encoding.md): decoder and encoder undo each other (R92, R93, R99), the
ill-formed words (R95), the opcode map (R94), the command the Host writes to CMD (R90), and the assembler (R100, R101). -/

namespace Sys2Proof.Machine

/-! ### The decoder, row by row -/

/-- Everything the decoder reads as a command: the opcode, its format's zeros, the operand fields (R92, R93, R99). -/
theorem decode_cmd_iff {w : Word} {i : Instr} :
    decode w = .cmd i ↔
      (opField w = 0 ∧ w.extractLsb' 0 28 = 0 ∧ i = .nop) ∨
      (opField w = 1 ∧ w.extractLsb' 16 12 = 0 ∧ i = .push (sampleField w)) ∨
      (opField w = 2 ∧ w.extractLsb' 9 19 = 0 ∧ i = .ingb (lastField w) (byteField w)) ∨
      (opField w = 3 ∧ w.extractLsb' 0 28 = 0 ∧ i = .inge) ∨
      (opField w = 4 ∧ w.extractLsb' 17 11 = 0 ∧ i = .advr (countField w)) ∨
      (opField w = 5 ∧ w.extractLsb' 0 28 = 0 ∧ i = .arm) := by
  unfold decode
  split <;> simp_all [ite_eq_iff, eq_comm (b := i)]

/-- A word is refused where its opcode has no format or its format's reserved bits are not all 0 (R95). -/
theorem decode_ill_iff {w : Word} :
    decode w = .ill ↔ ∀ lo, reservedFrom (opField w) = some lo → w.extractLsb' lo (28 - lo) ≠ 0 := by
  unfold decode
  split <;> simp_all [reservedFrom]

/-! ### Decoding an encoded instruction

Above its operand field a word is its opcode and zeros, whatever the operand. -/

theorem encode_push_fields (sample : Sample) :
    opField (encode (.push sample)) = 1 ∧ (encode (.push sample)).extractLsb' 16 12 = 0 ∧
      sampleField (encode (.push sample)) = sample := by
  have hhigh {start len : Nat} (h : 16 ≤ start) :
      (encode (.push sample)).extractLsb' start len = (0x1#4 ++ 0#12).extractLsb' (start - 16) len :=
    BitVec.extractLsb'_append_eq_of_le h
  refine ⟨?_, ?_, BitVec.extractLsb'_append_eq_right⟩
  · rw [opField, hhigh (by decide)]; rfl
  · rw [hhigh (by decide)]; rfl

theorem encode_ingb_fields (last : Bool) (byte : Byte) :
    opField (encode (.ingb last byte)) = 2 ∧ (encode (.ingb last byte)).extractLsb' 9 19 = 0 ∧
      lastField (encode (.ingb last byte)) = last ∧ byteField (encode (.ingb last byte)) = byte := by
  have hhigh {start len : Nat} (h : 8 ≤ start) :
      (encode (.ingb last byte)).extractLsb' start len =
        (0x2#4 ++ 0#19 ++ BitVec.ofBool last).extractLsb' (start - 8) len :=
    BitVec.extractLsb'_append_eq_of_le h
  have hlast : lastField (encode (.ingb last byte)) = (0x2#4 ++ 0#19 ++ BitVec.ofBool last).getLsbD 0 :=
    BitVec.getLsbD_append
  refine ⟨?_, ?_, ?_, BitVec.extractLsb'_append_eq_right⟩
  · rw [opField, hhigh (by decide)]; cases last <;> rfl
  · rw [hhigh (by decide)]; cases last <;> rfl
  · rw [hlast]; cases last <;> rfl

theorem encode_advr_fields {n : Nat} (hn : n < 2 ^ 17) :
    opField (encode (.advr n)) = 4 ∧ (encode (.advr n)).extractLsb' 17 11 = 0 ∧ countField (encode (.advr n)) = n := by
  have hhigh {start len : Nat} (h : 17 ≤ start) :
      (encode (.advr n)).extractLsb' start len = (0x4#4 ++ 0#11).extractLsb' (start - 17) len :=
    BitVec.extractLsb'_append_eq_of_le h
  have hlow : (encode (.advr n)).extractLsb' 0 17 = BitVec.ofNat 17 n := BitVec.extractLsb'_append_eq_right
  refine ⟨?_, ?_, ?_⟩
  · rw [opField, hhigh (by decide)]; rfl
  · rw [hhigh (by decide)]; rfl
  · rw [countField, hlow, BitVec.toNat_ofNat, Nat.mod_eq_of_lt hn]

/-- Settles O1: each field read back from the word is the one put there, and a well-formed N fits its 17 bits. -/
theorem decodeOfEncodeIsIdentity : Obligations.DecodeOfEncodeIsIdentity := by
  intro i hwf
  cases i with
  | nop => rfl
  | push sample =>
    obtain ⟨hop, hzero, hsample⟩ := encode_push_fields sample
    exact decode_cmd_iff.mpr (.inr (.inl ⟨hop, hzero, by rw [hsample]⟩))
  | ingb last byte =>
    obtain ⟨hop, hzero, hlast, hbyte⟩ := encode_ingb_fields last byte
    exact decode_cmd_iff.mpr (.inr (.inr (.inl ⟨hop, hzero, by rw [hlast, hbyte]⟩)))
  | inge => rfl
  | advr n =>
    have hn : n ≤ 131071 := of_decide_eq_true hwf
    obtain ⟨hop, hzero, hcount⟩ := encode_advr_fields (n := n) (by omega)
    exact decode_cmd_iff.mpr (.inr (.inr (.inr (.inr (.inl ⟨hop, hzero, by rw [hcount]⟩)))))
  | arm => rfl

/-! ### Encoding a decoded word

A word is its fields put together again, and where it decodes all of them but the operand are known. -/

theorem opBits_of_opField {w : Word} {n : Nat} (h : opField w = n) : w.extractLsb' 28 4 = BitVec.ofNat 4 n := by
  rw [← h, opField, BitVec.ofNat_toNat, BitVec.setWidth_eq]

theorem opcode_append_zeros {w : Word} {n : Nat} (hop : opField w = n) (hzero : w.extractLsb' 0 28 = 0) :
    BitVec.ofNat 4 n ++ 0#28 = w := by
  have hw : w.extractLsb' 28 4 ++ w.extractLsb' 0 28 = w := BitVec.extractLsb'_append_extractLsb'
  rw [opBits_of_opField hop, hzero] at hw
  exact hw

theorem encode_push_sampleField {w : Word} (hop : opField w = 1) (hzero : w.extractLsb' 16 12 = 0) :
    encode (.push (sampleField w)) = w := by
  have hhigh : w.extractLsb' 28 4 ++ w.extractLsb' 16 12 = w.extractLsb' 16 16 :=
    BitVec.extractLsb'_append_extractLsb'_eq_extractLsb' rfl
  have hw : w.extractLsb' 16 16 ++ sampleField w = w := BitVec.extractLsb'_append_extractLsb'
  rw [← hhigh, opBits_of_opField hop, hzero] at hw
  exact hw

theorem ofBool_lastField (w : Word) : BitVec.ofBool (lastField w) = w.extractLsb' 8 1 := by
  ext k hk
  obtain rfl : k = 0 := by omega
  simp [lastField]

theorem encode_ingb_lastField_byteField {w : Word} (hop : opField w = 2) (hzero : w.extractLsb' 9 19 = 0) :
    encode (.ingb (lastField w) (byteField w)) = w := by
  have hhigh : w.extractLsb' 28 4 ++ w.extractLsb' 9 19 = w.extractLsb' 9 23 :=
    BitVec.extractLsb'_append_extractLsb'_eq_extractLsb' rfl
  have hmid : w.extractLsb' 9 23 ++ w.extractLsb' 8 1 = w.extractLsb' 8 24 :=
    BitVec.extractLsb'_append_extractLsb'_eq_extractLsb' rfl
  have hw : w.extractLsb' 8 24 ++ byteField w = w := BitVec.extractLsb'_append_extractLsb'
  rw [← hmid, ← hhigh, opBits_of_opField hop, hzero, ← ofBool_lastField] at hw
  exact hw

theorem encode_advr_countField {w : Word} (hop : opField w = 4) (hzero : w.extractLsb' 17 11 = 0) :
    encode (.advr (countField w)) = w := by
  have hhigh : w.extractLsb' 28 4 ++ w.extractLsb' 17 11 = w.extractLsb' 17 15 :=
    BitVec.extractLsb'_append_extractLsb'_eq_extractLsb' rfl
  have hcount : BitVec.ofNat 17 (countField w) = w.extractLsb' 0 17 := by
    rw [countField, BitVec.ofNat_toNat, BitVec.setWidth_eq]
  have hw : w.extractLsb' 17 15 ++ w.extractLsb' 0 17 = w := BitVec.extractLsb'_append_extractLsb'
  rw [← hhigh, opBits_of_opField hop, hzero, ← hcount] at hw
  exact hw

/-- Settles O2: row by row, the word is its own opcode, zeros and operand fields. -/
theorem encodeOfDecodeIsIdentity : Obligations.EncodeOfDecodeIsIdentity := by
  intro w i h
  obtain ⟨hop, hzero, rfl⟩ | ⟨hop, hzero, rfl⟩ | ⟨hop, hzero, rfl⟩ | ⟨hop, hzero, rfl⟩ | ⟨hop, hzero, rfl⟩ |
    ⟨hop, hzero, rfl⟩ := decode_cmd_iff.mp h
  · exact ⟨rfl, opcode_append_zeros hop hzero⟩
  · exact ⟨rfl, encode_push_sampleField hop hzero⟩
  · exact ⟨rfl, encode_ingb_lastField_byteField hop hzero⟩
  · exact ⟨rfl, opcode_append_zeros hop hzero⟩
  · have hlt : countField w < 2 ^ 17 := BitVec.isLt _
    exact ⟨decide_eq_true (by omega), encode_advr_countField hop hzero⟩
  · exact ⟨rfl, opcode_append_zeros hop hzero⟩

/-! ### Ill-formed words (R95) -/

theorem extractLsb'_eq_zero_iff {w : Word} {lo n : Nat} :
    w.extractLsb' lo n = 0#n ↔ ∀ k, lo ≤ k → k < lo + n → w.getLsbD k = false := by
  constructor
  · intro h k hlo hk
    have hbit := congrArg (BitVec.getLsbD · (k - lo)) h
    have hlt : k - lo < n := by omega
    have hsum : lo + (k - lo) = k := by omega
    simpa [-BitVec.getLsbD_eq_getElem, hlt, hsum] using hbit
  · intro h
    ext k hk
    simpa using h (lo + k) (by omega) (by omega)

theorem reservedFrom_le {op lo : Nat} (h : reservedFrom op = some lo) : lo ≤ 28 := by
  unfold reservedFrom at h
  split at h <;> simp at h <;> omega

theorem runCommand_of_cmd {w : Word} {i : Instr} (h : decode w = .cmd i) (s : State) : runCommand w s = exec i s := by
  simp [runCommand, h]

theorem runCommand_of_ill {w : Word} (h : decode w = .ill) (s : State) : runCommand w s = .next s.setBadcmd := by
  simp [runCommand, h, execIll]

/-- Settles O3: a format's reserved bits run up to bit 27, and they are not all 0 where one of them is 1. -/
theorem illFormedWordsSetBadcmd : Obligations.IllFormedWordsSetBadcmd := by
  refine fun w => ⟨?_, fun h s => runCommand_of_ill h s⟩
  rw [decode_ill_iff, ← opField]
  cases hlo : reservedFrom (opField w) with
  | none => simp
  | some lo =>
    have hend : lo + (28 - lo) = 28 := Nat.add_sub_of_le (reservedFrom_le hlo)
    simp [extractLsb'_eq_zero_iff, hend]

/-! ### The opcode map (R94) -/

theorem encode_selectsRow (i : Instr) : Laws.EncodingRow.Statement i := by
  cases i with
  | nop => exact Laws.EncodingRow.nop
  | push sample => exact Laws.EncodingRow.push sample
  | ingb last byte => exact Laws.EncodingRow.ingb last byte
  | inge => exact Laws.EncodingRow.inge
  | advr n => exact Laws.EncodingRow.advr n
  | arm => exact Laws.EncodingRow.arm

/-- `match` is the row's opcode and zeros, so rows with one opcode are one row. -/
theorem rowMatch_eq (i : Instr) : rowMatch i = BitVec.ofNat 32 (opField (rowMatch i)) <<< 28 := by
  cases i <;> simp only [rowMatch] <;> decide

/-- `mask` is fixed by the row's opcode: it covers bit 31 down to the format's first reserved bit (R92). -/
theorem rowMask_eq (i : Instr) :
    rowMask i = BitVec.allOnes 32 <<< (reservedFrom (opField (rowMatch i))).getD 0 := by
  cases i <;> simp only [rowMask, rowMatch] <;> decide

/-- `mask` covers the opcode and the reserved bits of its format, and `match` has the latter 0 (R92). -/
theorem row_fields (i : Instr) :
    ∃ lo, reservedFrom (opField (rowMatch i)) = some lo ∧ (rowMask i).extractLsb' 28 4 = BitVec.allOnes 4 ∧
      (rowMask i).extractLsb' lo (28 - lo) = BitVec.allOnes (28 - lo) ∧ (rowMatch i).extractLsb' lo (28 - lo) = 0 := by
  cases i with
  | nop => exact ⟨0, by decide⟩
  | push _ => exact ⟨16, by simp only [rowMask, rowMatch]; decide⟩
  | ingb _ _ => exact ⟨9, by simp only [rowMask, rowMatch]; decide⟩
  | inge => exact ⟨0, by decide⟩
  | advr _ => exact ⟨17, by simp only [rowMask, rowMatch]; decide⟩
  | arm => exact ⟨0, by decide⟩

/-- A field that `mask` covers is `match`'s. -/
theorem extractLsb'_of_and_eq {w mask m : Word} {lo n : Nat} (h : w &&& mask = m)
    (hmask : mask.extractLsb' lo n = BitVec.allOnes n) : w.extractLsb' lo n = m.extractLsb' lo n := by
  rw [← h, BitVec.extractLsb'_and, hmask, BitVec.and_allOnes]

theorem opField_of_selectsRow {w : Word} {i : Instr} (h : w &&& rowMask i = rowMatch i) :
    opField w = opField (rowMatch i) := by
  obtain ⟨_, _, hmask, _⟩ := row_fields i
  exact congrArg BitVec.toNat (extractLsb'_of_and_eq h hmask)

theorem decode_ne_ill_of_selectsRow {w : Word} {i : Instr} (h : w &&& rowMask i = rowMatch i) : decode w ≠ .ill := by
  obtain ⟨lo, hlo, _, hmask, hzero⟩ := row_fields i
  rw [← opField_of_selectsRow h] at hlo
  exact fun hill => decode_ill_iff.mp hill lo hlo ((extractLsb'_of_and_eq h hmask).trans hzero)

theorem selectsRow_of_decode {w : Word} {i : Instr} (h : decode w = .cmd i) : w &&& rowMask i = rowMatch i := by
  obtain ⟨hwf, rfl⟩ := encodeOfDecodeIsIdentity w i h
  exact encode_selectsRow i hwf

theorem selectsRow_iff {w : Word} {i : Instr} :
    w &&& rowMask i = rowMatch i ↔ ∃ j, decode w = .cmd j ∧ rowMatch j = rowMatch i := by
  constructor
  · intro h
    cases hd : decode w with
    | ill => exact absurd hd (decode_ne_ill_of_selectsRow h)
    | cmd j =>
      have hop : opField (rowMatch j) = opField (rowMatch i) :=
        (opField_of_selectsRow (selectsRow_of_decode hd)).symm.trans (opField_of_selectsRow h)
      exact ⟨j, rfl, by rw [rowMatch_eq j, hop, ← rowMatch_eq i]⟩
  · intro ⟨j, hd, hrow⟩
    rw [rowMask_eq, ← hrow, ← rowMask_eq]
    exact selectsRow_of_decode hd

/-- Settles O4: a row is selected by the words that decode to an instruction of it, and a word decodes to one alone. -/
theorem opcodeMapSelectsOneRow : Obligations.OpcodeMapSelectsOneRow := by
  refine fun w i => ⟨selectsRow_iff, fun j hi hj => ?_⟩
  obtain ⟨a, ha, hrowi⟩ := selectsRow_iff.mp hi
  obtain ⟨b, hb, hrowj⟩ := selectsRow_iff.mp hj
  have hab : a = b := Command.cmd.inj (ha.symm.trans hb)
  rw [← hrowi, hab, hrowj]

/-- Settles O5: the decoder evaluated at each word. -/
theorem specWordsDecode : Obligations.SpecWordsDecode := by
  unfold Obligations.SpecWordsDecode
  decide

/-! ### The command the Host writes to CMD (R90) -/

theorem wordOfBytes_four (b0 b1 b2 b3 : Byte) : wordOfBytes [b0, b1, b2, b3] = b3 ++ b2 ++ b1 ++ b0 := by
  have hbytes : bytesOfWord (b3 ++ b2 ++ b1 ++ b0) = [b0, b1, b2, b3] := by
    simp only [bytesOfWord, BitVec.extractLsb'_append_eq_ite]
    simp
  rw [← hbytes, wordOfBytes_bytesOfWord]

theorem commandOf_write_cmd (p : Params) {bytes : List Byte} (h : bytes.length = 4) :
    commandOf p (.host (.write p.base bytes)) = some (wordOfBytes bytes) := by
  simp [commandOf, accessOk, h]

theorem step_of_write_cmd {s : State} {bytes : List Byte} {rest : List Event}
    (h : s.sched = .host (.write s.params.base bytes) :: rest) (hlen : bytes.length = 4) :
    step s = runCommand (wordOfBytes bytes) { s with sched := rest } := by
  rw [step_eq, nextEvent_scheduled h]
  exact takeEvent_command (commandOf_write_cmd s.params hlen)

/-- Settles O9: the step runs the word of the four bytes, which is its command or ILL. -/
theorem stepRunsDecodedCommand : Obligations.StepRunsDecodedCommand := by
  intro s b0 b1 b2 b3 rest h
  rw [step_of_write_cmd h rfl, wordOfBytes_four]
  exact ⟨fun i hi => runCommand_of_cmd hi _, fun hill => runCommand_of_ill hill _⟩

theorem step_withCommand (s : State) (w : Word) : step (s.withCommand w) = runCommand w s := by
  have hstep := step_of_write_cmd (s := s.withCommand w) (rest := s.sched) rfl rfl
  rw [wordOfBytes_bytesOfWord] at hstep
  exact hstep

theorem decodeTableWord_eq_some {nbits w : Nat} {i : Instr} :
    decodeTableWord nbits w = some i ↔ decode (BitVec.ofNat 32 (w % 2 ^ nbits)) = .cmd i := by
  unfold decodeTableWord
  split <;> simp [*]

/-- Settles O10: the placed word is written to CMD at the very next step, in the bus's byte order. -/
theorem placedWordRunsNext : Obligations.PlacedWordRunsNext := by
  intro s nbits w i h
  rw [State.withFetchWord, step_withCommand]
  exact runCommand_of_cmd (decodeTableWord_eq_some.mp h) s

/-! ### The assembler's words (R100): the row's `match`, LAST, and the immediate at the bottom -/

theorem encode_push (sample : Sample) : encode (.push sample) = 0x10000000#32 ||| sample.setWidth 32 :=
  BitVec.append_def 0x1000#16 sample

theorem encode_ingb (last : Bool) (byte : Byte) :
    encode (.ingb last byte) = (if last then 0x20000100#32 else 0x20000000#32) ||| byte.setWidth 32 := by
  cases last with
  | false => exact BitVec.append_def 0x200000#24 byte
  | true => exact BitVec.append_def 0x200001#24 byte

theorem encode_advr (n : Nat) : encode (.advr n) = 0x40000000#32 ||| (BitVec.ofNat 17 n).setWidth 32 :=
  BitVec.append_def 0x2000#15 (BitVec.ofNat 17 n)

theorem sampleImmOk_iff {v : Int} : sampleImmOk v = true ↔ -32768 ≤ v ∧ v ≤ 65535 := by simp [sampleImmOk]

theorem byteImmOk_iff {b : Int} : byteImmOk b = true ↔ 0 ≤ b ∧ b ≤ 255 := by simp [byteImmOk]

theorem countImmOk_iff {n : Int} : countImmOk n = true ↔ 0 ≤ n ∧ n ≤ 131071 := by simp [countImmOk]

/-- A sample is the low 16 bits of its immediate, negative or not. -/
theorem setWidth_ofInt_sample (v : Int) : (BitVec.ofInt 16 v).setWidth 32 = BitVec.ofInt 32 v &&& 0xFFFF := by
  apply BitVec.eq_of_toNat_eq
  have hlow : (BitVec.ofInt 32 v &&& 0xFFFF).toNat = (BitVec.ofInt 32 v).toNat % 2 ^ 16 :=
    Nat.and_two_pow_sub_one_eq_mod _ 16
  rw [hlow, BitVec.toNat_setWidth, BitVec.toNat_ofInt, BitVec.toNat_ofInt]
  omega

/-- An immediate that fits its field is not changed by it. -/
theorem setWidth_ofInt_of_lt {v : Int} {n : Nat} (h0 : 0 ≤ v) (hlt : v < 2 ^ n) :
    (BitVec.ofInt n v).setWidth 32 = BitVec.ofInt 32 v := by
  obtain ⟨m, rfl⟩ := Int.eq_ofNat_of_zero_le h0
  have hm : m < 2 ^ n := by exact_mod_cast hlt
  rw [BitVec.ofInt_natCast, BitVec.ofInt_natCast]
  apply BitVec.eq_of_toNat_eq
  rw [BitVec.toNat_setWidth, BitVec.toNat_ofNat, BitVec.toNat_ofNat, Nat.mod_eq_of_lt hm]

/-- Settles O6: an immediate in range is the low bits of the word, and any other is refused. -/
theorem assemblerWords : Obligations.AssemblerWords := by
  refine ⟨rfl, rfl, rfl, fun v => ?_⟩
  simp only [AsmStmt.words, AsmStmt.expand, sampleImmOk_iff, byteImmOk_iff, countImmOk_iff]
  refine ⟨?_, ?_, ?_, ?_⟩
  · split_ifs
    · simp [encode_push, setWidth_ofInt_sample]
    · rfl
  · split_ifs with h
    · simp [encode_ingb, setWidth_ofInt_of_lt (n := 8) h.1 (by omega)]
    · rfl
  · split_ifs with h
    · simp [encode_ingb, setWidth_ofInt_of_lt (n := 8) h.1 (by omega)]
    · rfl
  · split_ifs with h
    · have hcount : BitVec.ofNat 17 v.toNat = BitVec.ofInt 17 v := by
        rw [← BitVec.ofInt_natCast, Int.toNat_of_nonneg h.1]
      simp [encode_advr, hcount, setWidth_ofInt_of_lt (n := 17) h.1 (by omega)]
    · rfl

/-! ### The pseudo-instructions (R101) -/

theorem chunkCommands_append_last (bs : List Byte) (b : Byte) :
    chunkCommands (bs ++ [b]) = bs.map (.ingb false) ++ [.ingb true b] := by
  induction bs with
  | nil => rfl
  | cons c bs ih =>
    cases bs with
    | nil => rfl
    | cons d bs => exact congrArg (.ingb false c :: ·) ih

theorem bytesOfSample_ofInt (v : Int) :
    bytesOfSample (BitVec.ofInt 16 v) = [BitVec.ofInt 8 (v % 256), BitVec.ofInt 8 (v / 256 % 256)] := by
  have hlo : (BitVec.ofInt 16 v).extractLsb' 0 8 = BitVec.ofInt 8 (v % 256) := by
    apply BitVec.eq_of_toNat_eq
    simp only [BitVec.extractLsb'_toNat, BitVec.toNat_ofInt, Nat.shiftRight_eq_div_pow]
    omega
  have hhi : (BitVec.ofInt 16 v).extractLsb' 8 8 = BitVec.ofInt 8 (v / 256 % 256) := by
    apply BitVec.eq_of_toNat_eq
    simp only [BitVec.extractLsb'_toNat, BitVec.toNat_ofInt, Nat.shiftRight_eq_div_pow]
    omega
  rw [bytesOfSample, hlo, hhi]

theorem bytesOfSamples_ofInt (ss : List Int) :
    bytesOfSamples (ss.map (BitVec.ofInt 16)) =
      (ss.flatMap fun v => [v % 256, v / 256 % 256]).map (BitVec.ofInt 8) := by
  induction ss with
  | nil => rfl
  | cons v ss ih => simp [bytesOfSamples, bytesOfSample_ofInt, ih]

theorem expand_ingest {bs : List Int} (h : ∀ v ∈ bs, 0 ≤ v ∧ v ≤ 255) :
    (AsmStmt.ingest bs).expand = some (chunkCommands (bs.map (BitVec.ofInt 8))) :=
  if_pos (List.all_eq_true.mpr fun v hv => byteImmOk_iff.mpr (h v hv))

theorem expand_ingest16 {ss : List Int} (hne : ss ≠ []) (h : ∀ v ∈ ss, -32768 ≤ v ∧ v ≤ 65535) :
    (AsmStmt.ingest16 ss).expand = some (chunkCommands (bytesOfSamples (ss.map (BitVec.ofInt 16)))) := by
  have hall : ss.all sampleImmOk = true := List.all_eq_true.mpr fun v hv => sampleImmOk_iff.mpr (h v hv)
  simp [AsmStmt.expand, hall, hne]

/-- Settles O7: a chunk's last byte alone has LAST set, and a sample's two bytes are immediates of `ingest`. -/
theorem pseudoInstructionsExpand : Obligations.PseudoInstructionsExpand := by
  refine ⟨fun v => rfl, rfl, fun bs b h => ?_, fun ss hne h => ?_⟩
  · rw [expand_ingest h, List.map_append, List.map_singleton, chunkCommands_append_last, List.map_map]
    rfl
  · have hbytes : ∀ b ∈ ss.flatMap fun v => [v % 256, v / 256 % 256], 0 ≤ b ∧ b ≤ 255 := by
      intro b hb
      obtain ⟨v, _, hv⟩ := List.mem_flatMap.mp hb
      simp only [List.mem_cons, List.not_mem_nil, or_false] at hv
      omega
    rw [expand_ingest16 hne h, expand_ingest hbytes, bytesOfSamples_ofInt]

end Sys2Proof.Machine
end

section
/-! PROOFS. The ring buffer's statements (spec/40_ring_buffer.md): what PUSH (R121) and ADVR (R122, R123) do to the cursors,
COUNT and the slots, the full-buffer boundary (R124), the slots an advance frees (R125), the samples that are kept (R127)
and the order in which pushes fill the slots (R128). -/

namespace Sys2Proof.Machine

/-! ### The two commands -/

theorem exec_push_full {s : State} (v : Sample) (h : s.isFull = true) :
    exec (.push v) s = .next (s.setResult false) := tryWrite_full v h

theorem exec_push_room {s : State} (v : Sample) (h : s.isFull = false) (hw : s.wcur.toNat < s.params.cap) :
    exec (.push v) s = .next (s.stored v) := tryWrite_room v h hw

theorem exec_advr_idle {s : State} (n : Nat) (h : s.phase = .idle) :
    exec (.advr n) s = .next (advanceRead n s) := by simp [exec, execAdvr, h]

theorem exec_advr_refused {s : State} (n : Nat) (h : s.phase ≠ .idle) :
    exec (.advr n) s = .next s.setBadcmd := by simp [exec, execAdvr, h]

/-! ### Slots by their distance from a cursor -/

/-- Different distances below CAP from one cursor are different slots. -/
theorem slotIndex_inj {cap x i j : Nat} (hi : i < cap) (hj : j < cap) (h : (x + i) % cap = (x + j) % cap) : i = j :=
  (Nat.ModEq.add_left_cancel' x h).eq_of_lt_of_lt hi hj

/-- The stored samples end at WCUR: it is COUNT slots on from RCUR. -/
theorem State.rcur_add_count {s : State} (hw : s.wcur.toNat < s.params.cap) :
    (s.rcur.toNat + s.count) % s.params.cap = s.wcur.toNat := by
  have hint : (s.rcur.toNat + s.count : Int) % s.params.cap = s.wcur.toNat := by
    rw [s.count_cast, Int.add_emod_emod, add_sub_cancel]
    exact Int.emod_eq_of_lt (by omega) (by omega)
  exact_mod_cast hint

/-! ### The buffer after one command -/

@[simp] theorem State.stored_rcur (s : State) (v : Sample) : (s.stored v).rcur = s.rcur := rfl

theorem State.stored_wcur_toNat (s : State) (v : Sample) :
    (s.stored v).wcur.toNat = (s.wcur.toNat + 1) % s.params.cap := wrapAdd_toNat s.params s.wcur 1

theorem State.stored_wcur_lt (s : State) (v : Sample) : (s.stored v).wcur.toNat < s.params.cap :=
  wrapAdd_lt s.params s.wcur 1

/-- The `j`-th slot from the moved WCUR is the slot after the `j`-th from the old one. -/
theorem State.stored_slotIndex (s : State) (v : Sample) (j : Nat) :
    ((s.stored v).wcur.toNat + j) % s.params.cap = (s.wcur.toNat + (j + 1)) % s.params.cap := by
  rw [State.stored_wcur_toNat, Nat.mod_add_mod, Nat.add_assoc, Nat.add_comm 1 j]

theorem State.isFull_eq_false_iff {s : State} (hw : s.wcur.toNat < s.params.cap) (hr : s.rcur.toNat < s.params.cap) :
    s.isFull = false ↔ 0 < s.free := by
  rw [← Bool.not_eq_true, State.isFull_iff_count hw hr, ← s.free_eq_zero_iff, Nat.pos_iff_ne_zero]

theorem State.count_add_free (s : State) : s.count + s.free + 1 = s.params.cap := by
  have hlt := s.count_lt
  unfold State.free
  omega

/-- A stored sample makes COUNT one more, which is below CAP while a slot was free. -/
theorem State.stored_count {s : State} (v : Sample) (h : 0 < s.free) : (s.stored v).count = s.count + 1 := by
  have hcap := s.count_add_free
  have hint : ((s.stored v).count : Int) = (s.count + 1) % s.params.cap := by
    rw [State.count_cast, State.count_cast, State.stored_wcur_toNat, State.stored_rcur, State.stored_params]
    push_cast
    rw [Int.emod_sub_emod, Int.emod_add_emod]
    congr 1
    omega
  rw [Int.emod_eq_of_lt (by omega) (by omega)] at hint
  exact_mod_cast hint

theorem State.stored_free {s : State} (v : Sample) (h : 0 < s.free) : (s.stored v).free + 1 = s.free := by
  have hbefore := s.count_add_free
  have hafter := (s.stored v).count_add_free
  rw [State.stored_count v h, State.stored_params] at hafter
  omega

/-- An advance by `n` takes `n` from COUNT, modulo CAP and with no check against it (R125). -/
theorem advanceRead_count (n : Nat) (s : State) :
    ((advanceRead n s).count : Int) = ((s.count : Int) - n) % s.params.cap := by
  have hrcur : (advanceRead n s).rcur.toNat = (s.rcur.toNat + n) % s.params.cap := wrapAdd_toNat s.params s.rcur n
  have hwcur : (advanceRead n s).wcur = s.wcur := rfl
  rw [State.count_cast, State.count_cast, hrcur, hwcur, advanceRead_params]
  push_cast
  rw [Int.sub_emod_emod, Int.emod_sub_emod]
  congr 1
  omega

/-! ### PUSH and ADVR -/

/-- Settles O15: FULL leaves `setResult`, and room leaves `stored`, whose COUNT decides the derived flags. -/
theorem pushWritesOrDrops : Obligations.PushWritesOrDrops := by
  intro x s hw
  split
  · next hfull => exact ⟨_, exec_push_full x (State.isFull_iff.mpr hfull), rfl⟩
  · next hne =>
    have hroom : s.isFull = false := Bool.eq_false_iff.mpr fun h => hne (State.isFull_iff.mp h)
    refine ⟨_, exec_push_room x hroom hw, s.stored_slot_same x, fun a ha => s.stored_slot_other x ha,
      s.stored_wcur_toNat x, rfl, rfl, rfl, fun hr => ?_⟩
    have hcount := State.stored_count x ((State.isFull_eq_false_iff hw hr).mp hroom)
    have hempty := State.isEmpty_iff_count (s := s.stored x) (s.stored_wcur_lt x) hr
    have hfull := State.isFull_iff_count (s := s.stored x) (s.stored_wcur_lt x) hr
    rw [hcount] at hempty hfull
    exact ⟨Bool.eq_false_iff.mpr fun h => Nat.succ_ne_zero _ (hempty.mp h), hcount, hfull⟩

/-- Settles O16: PUSH writes slot WCUR alone, which is COUNT slots on from RCUR and so no stored sample's. -/
theorem pushKeepsStoredSamples : Obligations.PushKeepsStoredSamples := by
  intro x s hw hr
  cases hfull : s.isFull with
  | true => exact ⟨_, exec_push_full x hfull, fun j _ => rfl, fun _ a => rfl⟩
  | false =>
    refine ⟨_, exec_push_room x hfull hw, fun j hj => s.stored_slot_other x fun heq => ?_, nofun⟩
    rw [← State.rcur_add_count hw] at heq
    have hlast := slotIndex_inj (hj.trans s.count_lt) s.count_lt heq
    omega

/-- Settles O17: ADVR is AdvanceRead in IDLE and `BADCMD <- 1` outside it. -/
theorem advrMovesReadCursor : Obligations.AdvrMovesReadCursor := by
  intro n s
  split
  · next hidle => exact ⟨_, exec_advr_idle n hidle, wrapAdd_toNat s.params s.rcur n, rfl⟩
  · next hbusy => exact ⟨_, exec_advr_refused n hbusy, rfl⟩

/-- Settles O18: COUNT after the advance is `COUNT - n` where that is not negative, and `COUNT - n + CAP` where it is. -/
theorem advanceFreesSlots : Obligations.AdvanceFreesSlots := by
  intro n s hidle _ _
  have hbefore := s.count_add_free
  have hafter := (advanceRead n s).count_add_free
  have hcount := advanceRead_count n s
  rw [advanceRead_params] at hafter
  refine ⟨_, exec_advr_idle n hidle, hcount, rfl, fun hn => ?_, fun hn => ?_, fun hn hcap => ?_⟩
  · rw [Int.emod_eq_of_lt (by omega) (by omega)] at hcount
    omega
  · subst hn
    rw [Int.sub_emod_right, Int.emod_eq_of_lt (by omega) (by omega)] at hcount
    omega
  · rw [← Int.add_emod_right, Int.emod_eq_of_lt (by omega) (by omega)] at hcount
    omega

/-! ### Pushes one after the other -/

/-- The state after TryWrites that all find room, in order. -/
def State.storedAll (s : State) : List Sample → State
  | [] => s
  | v :: vs => (s.stored v).storedAll vs

/-- Pushes that find room leave `storedAll`: each takes one of the free slots. -/
theorem execAll_push_room (xs : List Sample) {s : State} (hw : s.wcur.toNat < s.params.cap)
    (hr : s.rcur.toNat < s.params.cap) (h : xs.length ≤ s.free) :
    execAll (xs.map .push) s = .next (s.storedAll xs) := by
  induction xs generalizing s with
  | nil => rfl
  | cons v vs ih =>
    rw [List.length_cons] at h
    have hpos : 0 < s.free := by omega
    have hfree := State.stored_free v hpos
    have hrest := ih (s := s.stored v) (s.stored_wcur_lt v) hr (by omega)
    rw [List.map_cons, execAll, exec_push_room v ((State.isFull_eq_false_iff hw hr).mpr hpos) hw, andThen_next, hrest,
      State.storedAll]

/-- Pushes into a FULL buffer are all dropped (R121). -/
theorem execAll_push_full {ys : List Sample} (hne : ys ≠ []) {s : State} (h : s.isFull = true) :
    execAll (ys.map .push) s = .next (s.setResult false) := by
  induction ys generalizing s with
  | nil => exact absurd rfl hne
  | cons y ys ih =>
    rw [List.map_cons, execAll, exec_push_full y h, andThen_next]
    cases ys with
    | nil => rfl
    | cons z zs => exact ih (List.cons_ne_nil z zs) (s := s.setResult false) h

@[simp] theorem State.storedAll_params (s : State) (xs : List Sample) : (s.storedAll xs).params = s.params := by
  induction xs generalizing s with
  | nil => rfl
  | cons v vs ih => exact ih (s.stored v)

@[simp] theorem State.storedAll_rcur (s : State) (xs : List Sample) : (s.storedAll xs).rcur = s.rcur := by
  induction xs generalizing s with
  | nil => rfl
  | cons v vs ih => exact ih (s.stored v)

theorem State.storedAll_wcur {s : State} (xs : List Sample) (hw : s.wcur.toNat < s.params.cap) :
    (s.storedAll xs).wcur.toNat = (s.wcur.toNat + xs.length) % s.params.cap := by
  induction xs generalizing s with
  | nil => exact (Nat.mod_eq_of_lt hw).symm
  | cons v vs ih => exact (ih (s.stored_wcur_lt v)).trans (s.stored_slotIndex v vs.length)

theorem State.storedAll_count {s : State} {xs : List Sample} (h : xs.length ≤ s.free) :
    (s.storedAll xs).count = s.count + xs.length := by
  induction xs generalizing s with
  | nil => rfl
  | cons v vs ih =>
    rw [List.length_cons] at h ⊢
    have hpos : 0 < s.free := by omega
    have hfree := State.stored_free v hpos
    rw [State.storedAll, ih (by omega), State.stored_count v hpos]
    omega

/-- The last of some successful TryWrites reports its success. -/
theorem State.storedAll_result (s : State) {xs : List Sample} (hne : xs ≠ []) :
    (s.storedAll xs).lpv = true ∧ (s.storedAll xs).lpok = true := by
  induction xs generalizing s with
  | nil => exact absurd rfl hne
  | cons v vs ih =>
    cases vs with
    | nil => exact ⟨rfl, rfl⟩
    | cons z zs => exact ih (s.stored v) (List.cons_ne_nil z zs)

/-- TryWrites touch no slot but the ones WCUR passes. -/
theorem State.storedAll_slot_other {s : State} {xs : List Sample} {a : Nat} (hw : s.wcur.toNat < s.params.cap)
    (h : ∀ j, j < xs.length → a ≠ (s.wcur.toNat + j) % s.params.cap) : (s.storedAll xs).slot a = s.slot a := by
  induction xs generalizing s with
  | nil => rfl
  | cons v vs ih =>
    have hfirst : a ≠ s.wcur.toNat := by simpa [Nat.mod_eq_of_lt hw] using h 0 (Nat.succ_pos _)
    have hrest : ∀ j, j < vs.length → a ≠ ((s.stored v).wcur.toNat + j) % s.params.cap := fun j hj => by
      rw [State.stored_slotIndex]
      exact h (j + 1) (Nat.succ_lt_succ hj)
    exact (ih (s.stored_wcur_lt v) hrest).trans (s.stored_slot_other v hfirst)

/-- Fewer than CAP TryWrites pass no slot twice, so the `j`-th slot from WCUR keeps the `j`-th sample. -/
theorem State.storedAll_slot_written {s : State} {xs : List Sample} (hw : s.wcur.toNat < s.params.cap)
    (hlen : xs.length < s.params.cap) {j : Nat} (hj : j < xs.length) :
    (s.storedAll xs).slot ((s.wcur.toNat + j) % s.params.cap) = xs[j] := by
  induction xs generalizing s j with
  | nil => exact absurd hj (Nat.not_lt_zero j)
  | cons v vs ih =>
    rw [List.length_cons] at hlen hj
    cases j with
    | zero =>
      have hkept : (s.storedAll (v :: vs)).slot s.wcur.toNat = (s.stored v).slot s.wcur.toNat := by
        refine State.storedAll_slot_other (s.stored_wcur_lt v) fun i hi heq => ?_
        rw [State.stored_params, State.stored_slotIndex] at heq
        have hzero : (s.wcur.toNat + 0) % s.params.cap = s.wcur.toNat := Nat.mod_eq_of_lt hw
        have hdist := slotIndex_inj s.params.cap_pos (by omega) (hzero.trans heq)
        omega
      rw [Nat.add_zero, Nat.mod_eq_of_lt hw, hkept, State.stored_slot_same, List.getElem_cons_zero]
    | succ j =>
      have hrest := ih (s := s.stored v) (s.stored_wcur_lt v) (by rw [State.stored_params]; omega) (j := j) (by omega)
      rw [State.stored_params, State.stored_slotIndex] at hrest
      rw [State.storedAll, hrest, List.getElem_cons_succ]

/-- Settles O19: in an EMPTY buffer CAP - 1 slots are free, and the buffer is FULL when COUNT has reached CAP - 1. -/
theorem emptyBufferTakesCapMinusOne : Obligations.EmptyBufferTakesCapMinusOne := by
  intro xs s hw hr hempty hlen
  have hcount : s.count = 0 := (State.isEmpty_iff_count hw hr).mp hempty
  have hfree := s.count_add_free
  have hcap := s.params.two_le_cap
  refine ⟨fun k hpos hk => ?_, ?_⟩
  · have htake : (xs.take k).length = k := List.length_take_of_le hk
    have hne : xs.take k ≠ [] := List.ne_nil_of_length_pos (by omega)
    have hroom : (xs.take k).length ≤ s.free := by omega
    refine ⟨_, execAll_push_room _ hw hr hroom, (s.storedAll_result hne).2, ?_⟩
    rw [State.storedAll_count hroom, hcount, htake, Nat.zero_add]
  · have hne : xs ≠ [] := List.ne_nil_of_length_pos (by omega)
    have hroom : xs.length ≤ s.free := by omega
    have hwcur : (s.storedAll xs).wcur.toNat < s.params.cap := by
      rw [State.storedAll_wcur xs hw]
      exact Nat.mod_lt _ s.params.cap_pos
    have hfull : (s.storedAll xs).isFull = true := by
      rw [State.isFull_iff_count (by rwa [State.storedAll_params]) (by simpa using hr), State.storedAll_count hroom,
        hcount, hlen, State.storedAll_params, Nat.zero_add]
    refine ⟨_, execAll_push_room xs hw hr hroom, hfull, fun ys hys => ?_⟩
    rw [execAll_push_full hys hfull, State.setResult, (s.storedAll_result hne).1]

/-- Settles O20: pushes that find room leave `storedAll`, and FREE is less than CAP. -/
theorem pushesFillConsecutiveSlots : Obligations.PushesFillConsecutiveSlots := by
  intro xs s hw hr hroom
  have hcap := s.count_add_free
  exact ⟨_, execAll_push_room xs hw hr hroom, fun j hj => State.storedAll_slot_written hw (by omega) hj,
    fun a ha => State.storedAll_slot_other hw ha, State.storedAll_wcur xs hw, s.storedAll_rcur xs⟩

end Sys2Proof.Machine
end

section
/-! PROOFS. Sample Ingest's statements (spec/41_ingest.md): what INGB (R151) and INGE (R152) do, the samples a chunk's
commands write, with nothing between them and with other events between them (R153, R154), and the value a stored sample
stands for (R156). -/

namespace Sys2Proof.Machine

/-! ### The two commands -/

theorem exec_ingb_first {s : State} (b : Byte) (h : s.pendb = false) :
    exec (.ingb false b) s = .next (s.setPending b) := by simp [exec, execIngb, h]

theorem exec_ingb_oddLast {s : State} (b : Byte) (h : s.pendb = false) : exec (.ingb true b) s = .next s := by
  simp [exec, execIngb, h]

theorem exec_ingb_second {s : State} (last : Bool) (b : Byte) (h : s.pendb = true) :
    exec (.ingb last b) s = exec (.push (sampleOf b s.pendlo)) s.clearPending := by
  simp [exec, execIngb, execPush, h]

theorem exec_inge (s : State) : exec .inge s = .next s.clearPending := rfl

/-- Clearing a decoder with nothing pending changes nothing. -/
theorem State.clearPending_of_clear {s : State} (hb : s.pendb = false) (hlo : s.pendlo = 0) : s.clearPending = s := by
  rw [State.clearPending, ← hb, ← hlo]

theorem State.clearPending_setPending (s : State) (b : Byte) : (s.setPending b).clearPending = s.clearPending := rfl

/-! ### What TryWrite leaves -/

theorem tryWrite_decoder {v : Sample} {s t : State} (h : tryWrite v s = .next t) :
    t.pendb = s.pendb ∧ t.pendlo = s.pendlo := by
  obtain ⟨_, rfl⟩ | ⟨_, _, rfl⟩ := tryWrite_cases h <;> exact ⟨rfl, rfl⟩

theorem tryWrite_slot_other {v : Sample} {s t : State} (h : tryWrite v s = .next t) {a : Nat}
    (ha : a ≠ s.wcur.toNat) : t.slot a = s.slot a := by
  obtain ⟨_, rfl⟩ | ⟨_, _, rfl⟩ := tryWrite_cases h
  · exact s.setResult_slot false a
  · exact s.stored_slot_other v ha

theorem tryWrite_wcur_lt {v : Sample} {s t : State} (hw : s.wcur.toNat < s.params.cap) (h : tryWrite v s = .next t) :
    t.wcur.toNat < s.params.cap := by
  obtain ⟨_, rfl⟩ | ⟨_, _, rfl⟩ := tryWrite_cases h
  · exact hw
  · exact s.stored_wcur_lt v

/-- Settles O21: the three arms of INGB; TryWrite runs on the cleared decoder and leaves it and the other slots. -/
theorem ingbTakesOneByte : Obligations.IngbTakesOneByte := by
  intro last b s
  refine ⟨?_, ?_, fun hb hw => ?_⟩
  · rintro hb rfl
    exact exec_ingb_first b hb
  · rintro hb rfl
    exact exec_ingb_oddLast b hb
  · obtain ⟨t, ht⟩ := tryWrite_completes (sampleOf b s.pendlo) (s := s.clearPending) hw
    obtain ⟨hpendb, hpendlo⟩ := tryWrite_decoder ht
    exact ⟨t, (exec_ingb_second last b hb).trans ht, ht, hpendb, hpendlo, fun a ha => tryWrite_slot_other ht ha⟩

/-- Settles O22: INGE clears the decoder. -/
theorem ingeDiscardsPendingByte : Obligations.IngeDiscardsPendingByte := exec_inge

/-! ### The samples of a chunk -/

theorem chunkSamples_length : ∀ bs : List Byte, (chunkSamples bs).length = bs.length / 2
  | [] => rfl
  | [_] => by simp [chunkSamples]
  | lo :: hi :: bs => by
    rw [chunkSamples, List.length_cons, chunkSamples_length bs, List.length_cons, List.length_cons]
    omega

theorem chunkSamples_getElem? :
    ∀ (bs : List Byte) (j : Nat), j < bs.length / 2 →
      (chunkSamples bs)[j]? = some (sampleOf (bs.getD (2 * j + 1) 0) (bs.getD (2 * j) 0))
  | [], _, h => absurd h (Nat.not_lt_zero _)
  | [_], _, h => absurd h (by simp)
  | _ :: _ :: _, 0, _ => rfl
  | lo :: hi :: bs, j + 1, h => by
    rw [List.length_cons, List.length_cons] at h
    exact chunkSamples_getElem? bs j (by omega)

/-! ### A chunk's commands one after the other -/

/-- Continuations that agree on the state a result holds give the same result. -/
theorem andThen_congr {r : Result} {k l : State → Result} (h : ∀ t, r = .next t → k t = l t) :
    andThen r k = andThen r l := by
  cases r with
  | next t => exact h t rfl
  | fault f => rfl
  | refused f => rfl

/-- From a clear decoder two bytes are one push, whether or not the second one ends the chunk. -/
theorem execAll_bytePair {s : State} (last : Bool) (lo hi : Byte) (is : List Instr) (hb : s.pendb = false)
    (hlo : s.pendlo = 0) :
    execAll (.ingb false lo :: .ingb last hi :: is) s = execAll (.push (sampleOf hi lo) :: is) s := by
  rw [execAll, exec_ingb_first lo hb, andThen_next, execAll, exec_ingb_second last hi (s.setPending_pendb lo),
    State.clearPending_setPending, State.clearPending_of_clear hb hlo, State.setPending_pendlo, execAll]

theorem execAll_chunkCommands :
    ∀ (bs : List Byte) {s : State}, s.pendb = false → s.pendlo = 0 →
      execAll (chunkCommands bs) s = execAll ((chunkSamples bs).map .push) s
  | [], s, hb, hlo => by
    rw [chunkCommands, execAll, exec_inge, State.clearPending_of_clear hb hlo]
    rfl
  | [b], s, hb, _ => by
    rw [chunkCommands, execAll, exec_ingb_oddLast b hb]
    rfl
  | [lo, hi], s, hb, hlo => execAll_bytePair true lo hi [] hb hlo
  | lo :: hi :: c :: bs, s, hb, hlo => by
    refine (execAll_bytePair false lo hi _ hb hlo).trans (andThen_congr fun t ht => ?_)
    obtain ⟨hpendb, hpendlo⟩ := tryWrite_decoder ht
    exact execAll_chunkCommands (c :: bs) (hpendb.trans hb) (hpendlo.trans hlo)

theorem execAll_push_decoder (xs : List Sample) {s t : State} (h : execAll (xs.map .push) s = .next t) :
    t.pendb = s.pendb ∧ t.pendlo = s.pendlo := by
  induction xs generalizing s with
  | nil => cases h; exact ⟨rfl, rfl⟩
  | cons x xs ih =>
    obtain ⟨u, hu, ht⟩ := andThen_eq_next h
    obtain ⟨hub, hulo⟩ := tryWrite_decoder hu
    obtain ⟨htb, htlo⟩ := ih ht
    exact ⟨htb.trans hub, htlo.trans hulo⟩

/-- Settles O23: the chunk's commands are its pushes, and pushes leave the decoder clear. -/
theorem chunkWritesItsSamples : Obligations.ChunkWritesItsSamples := by
  intro bs s hb hlo
  have hpushes := execAll_chunkCommands bs hb hlo
  refine ⟨hpushes, chunkSamples_length bs, chunkSamples_getElem? bs, fun t ht => ?_⟩
  obtain ⟨htb, htlo⟩ := execAll_push_decoder _ (hpushes.symm.trans ht)
  exact ⟨htb.trans hb, htlo.trans hlo⟩

/-- Settles O24: the samples of five bytes are two. -/
theorem fiveBytesMakeTwoSamples : Obligations.FiveBytesMakeTwoSamples :=
  fun b0 b1 b2 b3 b4 _ hb hlo => execAll_chunkCommands [b0, b1, b2, b3, b4] hb hlo

/-! ### The commands of a chunk by their number -/

theorem chunkCommands_getElem? :
    ∀ {bs : List Byte}, bs ≠ [] → ∀ k : Nat,
      (chunkCommands bs)[k]? = bs[k]?.map (.ingb (decide (k + 1 = bs.length)))
  | [], hne, _ => absurd rfl hne
  | [_], _, 0 => rfl
  | [_], _, _ + 1 => rfl
  | b :: c :: bs, _, 0 => by simp [chunkCommands]
  | b :: c :: bs, _, k + 1 => by
    simpa [chunkCommands] using chunkCommands_getElem? (List.cons_ne_nil c bs) k

/-- Command `k` of a chunk: INGE where the chunk is empty, else INGB of byte `k`, LAST on the last one. -/
theorem chunkCommand_cases {bs : List Byte} {k : Nat} {i : Instr} (h : (chunkCommands bs)[k]? = some i) :
    (bs = [] ∧ k = 0 ∧ i = .inge) ∨
    (k < bs.length ∧ i = .ingb (decide (k + 1 = bs.length)) (bs.getD k 0)) := by
  by_cases hne : bs = []
  · subst hne
    obtain ⟨hk, hi⟩ := List.getElem?_eq_some_iff.mp h
    have hzero : k = 0 := Nat.lt_one_iff.mp hk
    subst hzero
    exact .inl ⟨rfl, rfl, hi.symm⟩
  · rw [chunkCommands_getElem? hne, Option.map_eq_some_iff] at h
    obtain ⟨b, hb, rfl⟩ := h
    obtain ⟨hk, _⟩ := List.getElem?_eq_some_iff.mp hb
    refine .inr ⟨hk, ?_⟩
    rw [List.getD_eq_getElem?_getD, hb, Option.getD_some]

theorem length_le_chunkCommands_length : ∀ bs : List Byte, bs.length ≤ (chunkCommands bs).length
  | [] => Nat.zero_le _
  | [_] => Nat.le_refl _
  | _ :: c :: bs => Nat.succ_le_succ (length_le_chunkCommands_length (c :: bs))

/-- An event that writes a chunk's command word executes the command. -/
theorem takeEvent_chunkCommand {bs : List Byte} {k : Nat} {i : Instr} (hi : (chunkCommands bs)[k]? = some i) {e : Event}
    {u : State} (he : commandOf u.params e = some (encode i)) : takeEvent e u = exec i u := by
  have hwf : i.wf = true := by obtain ⟨_, _, rfl⟩ | ⟨_, rfl⟩ := chunkCommand_cases hi <;> rfl
  rw [takeEvent_command he, runCommand_of_cmd (decodeOfEncodeIsIdentity i hwf)]

/-! ### Events between a chunk's commands -/

/-- `t` differs from `s` at most outside storage, WCUR, LPV, LPOK and the decoder. -/
def IngestFrame (s t : State) : Prop :=
  { t with
    rcur := s.rcur, phase := s.phase, xsrc := s.xsrc, xlen := s.xlen, xcnt := s.xcnt, sfifo := s.sfifo, out := s.out
    replies := s.replies } = s

theorem IngestFrame.fields {s t : State} (h : IngestFrame s t) :
    t.params = s.params ∧ t.pendb = s.pendb ∧ t.pendlo = s.pendlo ∧ t.wcur = s.wcur ∧ t.lpv = s.lpv ∧
      t.lpok = s.lpok ∧ ∀ a, t.slot a = s.slot a := by
  rw [← h]
  exact ⟨rfl, rfl, rfl, rfl, rfl, rfl, fun _ => rfl⟩

/-- An event that is neither a command nor reset answers a next state and writes nothing of Sample Ingest. -/
theorem takeEvent_ingestFrame {e : Event} {s : State} (hne : e ≠ .reset) (hc : commandOf s.params e = none)
    (hw : s.wcur.toNat < s.params.cap) : ∃ t, takeEvent e s = .next t ∧ IngestFrame s t := by
  cases e with
  | host a =>
    obtain ⟨t, ht⟩ := busAccess_completes a hw
    obtain rfl | ⟨bytes, rfl⟩ := busAccess_other hc ht
    · exact ⟨_, ht, rfl⟩
    · exact ⟨_, ht, rfl⟩
  | engine =>
    have hframe := congrArg (fun u : State => { u with out := s.out, replies := s.replies }) (engineTurn_frame s)
    exact ⟨_, rfl, hframe⟩
  | sink =>
    have hframe := congrArg
      (fun u : State =>
        { u with
          rcur := s.rcur, phase := s.phase, xsrc := s.xsrc, xlen := s.xlen, xcnt := s.xcnt, replies := s.replies })
      (sinkTurn_frame s)
    exact ⟨_, rfl, hframe⟩
  | reset => exact absurd rfl hne

/-! ### A chunk with events between its commands -/

/-- The state when `k` of the commands of the chunk `bs` have run: after an odd number of them, the chunk not at its end,
the last byte is pending, and else nothing is. -/
structure ChunkSent (bs : List Byte) (p : Params) (k : Nat) (u : State) : Prop where
  params : u.params = p
  wcur_lt : u.wcur.toNat < u.params.cap
  pending : k % 2 = 1 → k < bs.length → u.pendb = true ∧ u.pendlo = bs.getD (k - 1) 0
  clear : k % 2 = 0 ∨ bs.length ≤ k → u.pendb = false ∧ u.pendlo = 0

/-- What command `k` of a chunk does: an odd one completes a sample, an even one keeps its byte, or changes nothing where
it is the last. -/
theorem exec_chunkCommand {bs : List Byte} {p : Params} {k : Nat} {i : Instr} {u : State} (h : ChunkSent bs p k u)
    (hi : (chunkCommands bs)[k]? = some i) :
    (k % 2 = 1 ∧ exec i u = exec (.push (sampleOf (bs.getD k 0) (bs.getD (k - 1) 0))) u.clearPending) ∨
    (k % 2 = 0 ∧ k + 1 < bs.length ∧ exec i u = .next (u.setPending (bs.getD k 0))) ∨
    (k % 2 = 0 ∧ bs.length ≤ k + 1 ∧ exec i u = .next u) := by
  obtain ⟨rfl, rfl, rfl⟩ | ⟨hk, rfl⟩ := chunkCommand_cases hi
  · obtain ⟨hb, hlo⟩ := h.clear (.inl rfl)
    refine .inr (.inr ⟨rfl, Nat.zero_le _, ?_⟩)
    rw [exec_inge, State.clearPending_of_clear hb hlo]
  · obtain heven | hodd := Nat.mod_two_eq_zero_or_one k
    · obtain ⟨hb, _⟩ := h.clear (.inl heven)
      by_cases hlast : k + 1 = bs.length
      · rw [decide_eq_true hlast]
        exact .inr (.inr ⟨heven, hlast.ge, exec_ingb_oddLast _ hb⟩)
      · rw [decide_eq_false hlast]
        exact .inr (.inl ⟨heven, by omega, exec_ingb_first _ hb⟩)
    · obtain ⟨hb, hlo⟩ := h.pending hodd hk
      exact .inl ⟨hodd, by rw [exec_ingb_second _ _ hb, hlo]⟩

theorem ChunkSent.exec_command {bs : List Byte} {p : Params} {k : Nat} {i : Instr} {u : State} (h : ChunkSent bs p k u)
    (hi : (chunkCommands bs)[k]? = some i) : ∃ t, exec i u = .next t ∧ ChunkSent bs p (k + 1) t := by
  obtain ⟨hodd, hex⟩ | ⟨heven, hk, hex⟩ | ⟨heven, hk, hex⟩ := exec_chunkCommand h hi
  · obtain ⟨t, ht⟩ := tryWrite_completes (sampleOf (bs.getD k 0) (bs.getD (k - 1) 0)) (s := u.clearPending) h.wcur_lt
    have hparams := tryWrite_params ht
    refine ⟨t, hex.trans ht, hparams.trans h.params, ?_, fun hnext => by omega, fun _ => tryWrite_decoder ht⟩
    rw [hparams]
    exact tryWrite_wcur_lt (s := u.clearPending) h.wcur_lt ht
  · exact ⟨_, hex, h.params, h.wcur_lt, fun _ _ => ⟨rfl, rfl⟩, fun hclear => by omega⟩
  · exact ⟨u, hex, h.params, h.wcur_lt, fun _ hlt => by omega, fun _ => h.clear (.inl heven)⟩

theorem ChunkSent.of_ingestFrame {bs : List Byte} {p : Params} {k : Nat} {u t : State} (h : ChunkSent bs p k u)
    (hf : IngestFrame u t) : ChunkSent bs p k t := by
  obtain ⟨hparams, hpendb, hpendlo, hwcur, _⟩ := hf.fields
  refine ⟨hparams.trans h.params, ?_, ?_, ?_⟩
  · rw [hwcur, hparams]
    exact h.wcur_lt
  · rw [hpendb, hpendlo]
    exact h.pending
  · rw [hpendb, hpendlo]
    exact h.clear

/-- The word an event writes is that of the chunk's command whose number is the count of the words before it. -/
theorem chunkCommand_of_commandWords {bs : List Byte} {p : Params} {pre post : List Event} {e : Event} {w : Word}
    (hwords : commandWords p (pre ++ e :: post) = (chunkCommands bs).map encode) (he : commandOf p e = some w) :
    ∃ i, (chunkCommands bs)[(commandWords p pre).length]? = some i ∧ encode i = w := by
  have hat : ((chunkCommands bs).map encode)[(commandWords p pre).length]? = some w := by
    rw [← hwords]
    simp [commandWords, he]
  rwa [List.getElem?_map, Option.map_eq_some_iff] at hat

/-- Every beginning of the events completes, and leaves the state of as many commands as it holds. -/
theorem takeEvents_chunkSent {bs : List Byte} {s : State} {es : List Event} (hs : ChunkSent bs s.params 0 s)
    (hreset : ∀ e ∈ es, e ≠ .reset) (hwords : commandWords s.params es = (chunkCommands bs).map encode)
    {pre post : List Event} (hes : es = pre ++ post) :
    ∃ u, takeEvents pre s = .next u ∧ ChunkSent bs s.params (commandWords s.params pre).length u := by
  induction pre using List.reverseRecOn generalizing post with
  | nil => exact ⟨s, rfl, hs⟩
  | append_singleton pre e ih =>
    rw [List.append_assoc, List.singleton_append] at hes
    obtain ⟨u, hu, hsent⟩ := ih hes
    have hrun : takeEvents (pre ++ [e]) s = andThen (takeEvent e u) .next := by
      rw [takeEvents_append, hu]
      rfl
    cases hc : commandOf s.params e with
    | none =>
      have hne : e ≠ .reset := hreset e (by simp [hes])
      obtain ⟨t, ht, hframe⟩ := takeEvent_ingestFrame hne (by rwa [hsent.params]) hsent.wcur_lt
      refine ⟨t, by rw [hrun, ht, andThen_next], ?_⟩
      simpa [commandWords, hc] using hsent.of_ingestFrame hframe
    | some w =>
      obtain ⟨i, hi, rfl⟩ := chunkCommand_of_commandWords (hes ▸ hwords) hc
      obtain ⟨t, ht, hnext⟩ := hsent.exec_command hi
      refine ⟨t, by rw [hrun, takeEvent_chunkCommand hi (by rwa [hsent.params]), ht, andThen_next], ?_⟩
      simpa [commandWords, hc] using hnext

/-- Settles O58: before each event `ChunkSent` holds for the commands that have run, and at the end for all of them. -/
theorem interleavedChunkWritesItsSamples : Obligations.InterleavedChunkWritesItsSamples := by
  intro bs es s hb hlo hw hreset hwords
  have hs : ChunkSent bs s.params 0 s := ⟨rfl, hw, nofun, fun _ => ⟨hb, hlo⟩⟩
  refine ⟨?_, fun pre post e u hes hu => ?_⟩
  · obtain ⟨t, ht, hsent⟩ := takeEvents_chunkSent hs hreset hwords (List.append_nil es).symm
    have hall : bs.length ≤ (commandWords s.params es).length := by
      rw [hwords, List.length_map]
      exact length_le_chunkCommands_length bs
    exact ⟨t, ht, hsent.clear (.inr hall)⟩
  · obtain ⟨v, hv, hsent⟩ := takeEvents_chunkSent hs hreset hwords hes
    cases hu.symm.trans hv
    intro k
    cases hc : commandOf s.params e with
    | none =>
      have hne : e ≠ .reset := hreset e (by simp [hes])
      obtain ⟨t, ht, hframe⟩ := takeEvent_ingestFrame hne (by rwa [hsent.params]) hsent.wcur_lt
      rw [if_pos rfl]
      exact ⟨t, ht, hframe.fields.2⟩
    | some w =>
      obtain ⟨i, hi, rfl⟩ := chunkCommand_of_commandWords (hes ▸ hwords) hc
      rw [if_neg (Option.some_ne_none _), takeEvent_chunkCommand hi (by rwa [hsent.params])]
      obtain ⟨hodd, hex⟩ | ⟨heven, hk, hex⟩ | ⟨heven, hk, hex⟩ := exec_chunkCommand hsent hi
      · rw [if_pos hodd]
        exact hex
      · rw [if_neg (by omega), if_pos hk]
        exact hex
      · rw [if_neg (by omega), if_neg (by omega)]
        exact hex

/-! ### A sample as audio -/

/-- Settles O25: two's complement takes `2 ^ 16` off where the top bit, that of the high byte, is 1. -/
theorem sampleAsAudio : Obligations.SampleAsAudio := by
  intro hi lo
  have hsign : (sampleOf hi lo).msb = hi.getLsbD 7 := by
    rw [sampleOf, BitVec.msb_append, if_neg (by decide), BitVec.msb_eq_getLsbD_last]
  rw [audioValue, BitVec.toInt_eq_msb_cond, hsign, sampleOf_toNat]
  cases hi.getLsbD 7 with
  | false => simp [Nat.mul_comm]
  | true => simp [Nat.mul_comm]

end Sys2Proof.Machine
end

section
/-! PROOFS. The Streaming Engine's and the sink's statements (spec/42_streaming.md), one event at a time: ARM (R171), the
Engine's steps (R176 to R180), CONSUME (R181) and the phases (R170), and what an RBC outside IDLE keeps (R184, R187). -/

namespace Sys2Proof.Machine

/-! ### Events one after the other -/

theorem takeEvents_singleton (e : Event) (s : State) : takeEvents [e] s = takeEvent e s := by
  rw [takeEvents]
  cases takeEvent e s <;> rfl

theorem takeEvents_cons {e : Event} {s u : State} (h : takeEvent e s = .next u) (es : List Event) :
    takeEvents (e :: es) s = takeEvents es u := by rw [takeEvents, h, andThen_next]

theorem takeEvents_append_of_next {es : List Event} {s u : State} (h : takeEvents es s = .next u) (fs : List Event) :
    takeEvents (es ++ fs) s = takeEvents fs u := by rw [takeEvents_append, h, andThen_next]

/-! ### The transfer the invariant allows outside IDLE (R36) -/

theorem xlen_toNat {s : State} (hs : Inv s) (hbusy : s.phase ≠ .idle) : s.xlen.toNat = s.params.cap := by
  obtain ⟨_, htr, _⟩ := hs
  rw [transferOk_iff] at htr
  cases hp : s.phase with
  | idle => exact absurd hp hbusy
  | armed | cAck | cAdv | cRearm =>
    simp only [hp] at htr
    rw [htr.1, capCount_toNat]

theorem xcnt_lt_xlen {s : State} (hs : Inv s) (hp : s.phase = .armed) : s.xcnt.toNat < s.xlen.toNat := by
  rw [xlen_toNat hs (hp.trans_ne nofun)]
  obtain ⟨_, htr, _⟩ := hs
  rw [transferOk_iff, hp] at htr
  exact htr.2.1

theorem xsrc_eq_rcur {s : State} (hs : Inv s) (hbusy : s.phase ≠ .idle) : s.xsrc = s.rcur := by
  obtain ⟨_, ⟨_, _, _, _, _, hsrc⟩, _⟩ := hs
  exact hsrc hbusy

/-! ### The buffer of an RBC outside IDLE (R184) -/

/-- `t` has the storage and the cursors of `s`. -/
structure SameBuffer (s t : State) : Prop where
  params : t.params = s.params
  stor : t.stor = s.stor
  resets : t.resets = s.resets
  wcur : t.wcur = s.wcur
  rcur : t.rcur = s.rcur

theorem SameBuffer.refl (s : State) : SameBuffer s s := ⟨rfl, rfl, rfl, rfl, rfl⟩

theorem SameBuffer.trans {s t u : State} (h : SameBuffer s t) (h' : SameBuffer t u) : SameBuffer s u :=
  ⟨h'.params.trans h.params, h'.stor.trans h.stor, h'.resets.trans h.resets, h'.wcur.trans h.wcur, h'.rcur.trans h.rcur⟩

theorem SameBuffer.slot {s t : State} (h : SameBuffer s t) (a : Nat) : t.slot a = s.slot a :=
  State.slot_congr h.stor h.resets a

theorem SameBuffer.count {s t : State} (h : SameBuffer s t) : t.count = s.count := by
  simp only [State.count, h.params, h.wcur, h.rcur]

theorem SameBuffer.free {s t : State} (h : SameBuffer s t) : t.free = s.free := by
  rw [State.free, State.free, h.count, h.params]

theorem SameBuffer.isFull {s t : State} (h : SameBuffer s t) : t.isFull = s.isFull := by
  simp only [State.isFull, h.params, h.wcur, h.rcur]

theorem SameBuffer.stored {s t : State} (h : SameBuffer s t) (v : Sample) : SameBuffer (s.stored v) (t.stored v) := by
  refine ⟨h.params, ?_, h.resets, ?_, h.rcur⟩
  · simp only [State.stored, h.stor, h.wcur]
  · simp only [State.stored, h.params, h.wcur]

theorem SameBuffer.storedAll {s t : State} (h : SameBuffer s t) (xs : List Sample) :
    SameBuffer (s.storedAll xs) (t.storedAll xs) := by
  induction xs generalizing s t with
  | nil => exact h
  | cons x xs ih => exact ih (h.stored x)

/-- A TryWrite on the buffer of `s` leaves it, or stores a sample where there is room. -/
theorem SameBuffer.tryWrite {s u t : State} {v : Sample} (hu : SameBuffer s u) (h : tryWrite v u = .next t) :
    SameBuffer s t ∨ (s.isFull = false ∧ s.wcur.toNat < s.params.cap ∧ SameBuffer (s.stored v) t) := by
  obtain ⟨_, rfl⟩ | ⟨hfull, hw, rfl⟩ := tryWrite_cases h
  · exact .inl ⟨hu.params, hu.stor, hu.resets, hu.wcur, hu.rcur⟩
  · rw [hu.wcur, hu.params] at hw
    exact .inr ⟨hu.isFull.symm.trans hfull, hw, hu.stored v⟩

/-- Outside IDLE a command leaves the buffer, or stores one sample where there is room. -/
theorem exec_buffer {i : Instr} {s t : State} (hp : s.phase ≠ .idle) (h : exec i s = .next t) :
    SameBuffer s t ∨ ∃ v, s.isFull = false ∧ s.wcur.toNat < s.params.cap ∧ SameBuffer (s.stored v) t := by
  have hclear : SameBuffer s s.clearPending := ⟨rfl, rfl, rfl, rfl, rfl⟩
  obtain rfl | ⟨_, rfl⟩ | ⟨b, _, rfl⟩ | rfl | ⟨n, _, hidle, rfl⟩ | ⟨_, hidle, rfl⟩ | ⟨v, hv⟩ | ⟨v, hv⟩ := exec_cases h
  · exact .inl (.refl _)
  · exact .inl ⟨rfl, rfl, rfl, rfl, rfl⟩
  · exact .inl ⟨rfl, rfl, rfl, rfl, rfl⟩
  · exact .inl hclear
  · exact absurd hidle hp
  · exact absurd hidle hp
  · exact ((SameBuffer.refl s).tryWrite hv).imp_right fun hroom => ⟨v, hroom⟩
  · exact (hclear.tryWrite hv).imp_right fun hroom => ⟨v, hroom⟩

theorem busAccess_buffer {a : Access} {s t : State} (hp : s.phase ≠ .idle) (h : busAccess a s = .next t) :
    SameBuffer s t ∨ ∃ v, s.isFull = false ∧ s.wcur.toNat < s.params.cap ∧ SameBuffer (s.stored v) t := by
  obtain rfl | ⟨bytes, rfl⟩ | ⟨bytes, _, _, hw⟩ := busAccess_cases h
  · exact .inl ⟨rfl, rfl, rfl, rfl, rfl⟩
  · exact .inl ⟨rfl, rfl, rfl, rfl, rfl⟩
  · obtain ⟨i, _, hi⟩ | ⟨_, rfl⟩ := runCommand_cases hw
    · exact exec_buffer hp hi
    · exact .inl ⟨rfl, rfl, rfl, rfl, rfl⟩

/-- ADV leaves RCUR's value after a full lap (R179): an advance by CAP is the identity. -/
theorem stepAdv_rcur {s : State} (hr : s.rcur.toNat < s.params.cap) (hlen : s.xlen.toNat = s.params.cap) :
    (stepAdv s).rcur = s.rcur := by
  have hsame : wrapAdd s.params.cap s.rcur s.xlen.toNat = s.rcur := by rw [hlen, wrapAdd_cap s.params hr]
  exact hsame

theorem stepAdv_rcur_of_inv {s : State} (hs : Inv s) (hp : s.phase = .cAdv) : (stepAdv s).rcur = s.rcur := by
  have ⟨⟨_, hr, _⟩, _⟩ := hs
  exact stepAdv_rcur hr (xlen_toNat hs (hp.trans_ne nofun))

theorem engineTurn_sameBuffer {s : State} (hs : Inv s) : SameBuffer s (engineTurn s) := by
  obtain ⟨_, h⟩ | ⟨_, _, _, h⟩ | ⟨_, h⟩ | ⟨hp, h⟩ | ⟨_, h⟩ := engineTurn_cases s <;> rw [h]
  · exact .refl s
  · rw [stepFetch_eq]; exact ⟨rfl, rfl, rfl, rfl, rfl⟩
  · exact ⟨rfl, rfl, rfl, rfl, rfl⟩
  · exact ⟨rfl, rfl, rfl, rfl, stepAdv_rcur_of_inv hs hp⟩
  · exact ⟨rfl, rfl, rfl, rfl, rfl⟩

theorem sinkTurn_sameBuffer (s : State) : SameBuffer s (sinkTurn s) := by
  obtain ⟨_, h⟩ | ⟨w, rest, _, h⟩ := sinkTurn_cases s <;> rw [h] <;> exact ⟨rfl, rfl, rfl, rfl, rfl⟩

/-- Outside IDLE an event but reset leaves the buffer, or stores one sample where there is room. -/
theorem takeEvent_buffer {e : Event} {s t : State} (hs : Inv s) (hp : s.phase ≠ .idle) (hne : e ≠ .reset)
    (h : takeEvent e s = .next t) :
    SameBuffer s t ∨ ∃ v, s.isFull = false ∧ s.wcur.toNat < s.params.cap ∧ SameBuffer (s.stored v) t := by
  cases e with
  | host a => exact busAccess_buffer hp h
  | engine => cases h; exact .inl (engineTurn_sameBuffer hs)
  | sink => cases h; exact .inl (sinkTurn_sameBuffer s)
  | reset => exact absurd rfl hne

/-- What no event but reset takes from the buffer of an RBC outside IDLE: RCUR, the samples it holds, and, where it is
FULL, WCUR and every slot (R184). -/
structure BufferKept (s t : State) : Prop where
  params : t.params = s.params
  rcur : t.rcur = s.rcur
  count_le : s.count ≤ t.count
  held : ∀ j, j < s.count →
    t.slot ((s.rcur.toNat + j) % s.params.cap) = s.slot ((s.rcur.toNat + j) % s.params.cap)
  full : s.isFull = true → t.wcur = s.wcur ∧ ∀ a, t.slot a = s.slot a

theorem SameBuffer.kept {s t : State} (h : SameBuffer s t) : BufferKept s t :=
  ⟨h.params, h.rcur, h.count.ge, fun _ _ => h.slot _, fun _ => ⟨h.wcur, h.slot⟩⟩

/-- A stored sample goes to slot WCUR, which is COUNT slots on from RCUR and so no held sample's (R127). -/
theorem BufferKept.of_stored {s t : State} {v : Sample} (hr : s.rcur.toNat < s.params.cap) (hfull : s.isFull = false)
    (hw : s.wcur.toNat < s.params.cap) (h : SameBuffer (s.stored v) t) : BufferKept s t := by
  refine ⟨h.params, h.rcur, ?_, fun j hj => ?_, fun htrue => ?_⟩
  · rw [h.count, State.stored_count v ((State.isFull_eq_false_iff hw hr).mp hfull)]
    exact Nat.le_succ _
  · rw [h.slot]
    refine s.stored_slot_other v fun heq => ?_
    rw [← State.rcur_add_count hw] at heq
    have hlast := slotIndex_inj (hj.trans s.count_lt) s.count_lt heq
    omega
  · rw [hfull] at htrue
    cases htrue

theorem BufferKept.isFull {s t : State} (h : BufferKept s t) (hfull : s.isFull = true) : t.isFull = true := by
  rw [State.isFull, (h.full hfull).1, h.params, h.rcur]
  exact hfull

theorem BufferKept.trans {s t u : State} (h : BufferKept s t) (h' : BufferKept t u) : BufferKept s u := by
  refine ⟨h'.params.trans h.params, h'.rcur.trans h.rcur, h.count_le.trans h'.count_le, fun j hj => ?_, fun hfull => ?_⟩
  · have hlater := h'.held j (hj.trans_le h.count_le)
    rw [h.rcur, h.params] at hlater
    exact hlater.trans (h.held j hj)
  · obtain ⟨hwcur, hslot⟩ := h.full hfull
    obtain ⟨hwcur', hslot'⟩ := h'.full (h.isFull hfull)
    exact ⟨hwcur'.trans hwcur, fun a => (hslot' a).trans (hslot a)⟩

theorem takeEvent_bufferKept {e : Event} {s t : State} (hs : Inv s) (hp : s.phase ≠ .idle) (hne : e ≠ .reset)
    (h : takeEvent e s = .next t) : BufferKept s t := by
  have ⟨⟨_, hr, _⟩, _⟩ := hs
  obtain hsame | ⟨v, hfull, hw, hstored⟩ := takeEvent_buffer hs hp hne h
  · exact hsame.kept
  · exact .of_stored hr hfull hw hstored

/-! ### The transfer of an RBC outside IDLE -/

/-- `t` has RCUR, PHASE and the StreamingState of `s`. -/
structure SameTransfer (s t : State) : Prop where
  params : t.params = s.params
  rcur : t.rcur = s.rcur
  phase : t.phase = s.phase
  xsrc : t.xsrc = s.xsrc
  xlen : t.xlen = s.xlen
  xcnt : t.xcnt = s.xcnt

theorem SameTransfer.refl (s : State) : SameTransfer s s := ⟨rfl, rfl, rfl, rfl, rfl, rfl⟩

theorem SameTransfer.trans {s t u : State} (h : SameTransfer s t) (h' : SameTransfer t u) : SameTransfer s u :=
  ⟨h'.params.trans h.params, h'.rcur.trans h.rcur, h'.phase.trans h.phase, h'.xsrc.trans h.xsrc, h'.xlen.trans h.xlen,
    h'.xcnt.trans h.xcnt⟩

theorem HostFrame.sameTransfer {s t : State} (h : HostFrame s t) : SameTransfer s t := by
  rw [← h]
  exact ⟨rfl, rfl, rfl, rfl, rfl, rfl⟩

theorem sinkTurn_sameTransfer (s : State) : SameTransfer s (sinkTurn s) := by
  obtain ⟨_, h⟩ | ⟨w, rest, _, h⟩ := sinkTurn_cases s <;> rw [h] <;> exact ⟨rfl, rfl, rfl, rfl, rfl, rfl⟩

theorem busAccess_hostFrame_of_ne_idle {a : Access} {s t : State} (hp : s.phase ≠ .idle)
    (h : busAccess a s = .next t) : HostFrame s t := by
  obtain hf | ⟨hidle, _⟩ := busAccess_hostFrame h
  · exact hf
  · exact absurd hidle hp

/-- Outside IDLE the Engine alone moves the transfer (R20). -/
theorem takeEvent_sameTransfer {e : Event} {s t : State} (hp : s.phase ≠ .idle) (he : e ≠ .engine) (hne : e ≠ .reset)
    (h : takeEvent e s = .next t) : SameTransfer s t := by
  cases e with
  | host a => exact (busAccess_hostFrame_of_ne_idle hp h).sameTransfer
  | engine => exact absurd rfl he
  | sink => cases h; exact sinkTurn_sameTransfer s
  | reset => exact absurd rfl hne

theorem engineTurn_ne_idle {s : State} (hp : s.phase ≠ .idle) : (engineTurn s).phase ≠ .idle := by
  obtain ⟨_, h⟩ | ⟨_, _, _, h⟩ | ⟨_, h⟩ | ⟨_, h⟩ | ⟨_, h⟩ := engineTurn_cases s <;> rw [h]
  · exact hp
  · rw [stepFetch_eq]
    dsimp only
    split
    · nofun
    · exact hp
  · nofun
  · nofun
  · nofun

/-- Only reset goes back to IDLE (R170). -/
theorem takeEvent_ne_idle {e : Event} {s t : State} (hp : s.phase ≠ .idle) (hne : e ≠ .reset)
    (h : takeEvent e s = .next t) : t.phase ≠ .idle := by
  by_cases he : e = .engine
  · subst he
    cases h
    exact engineTurn_ne_idle hp
  · rw [(takeEvent_sameTransfer hp he hne h).phase]
    exact hp

theorem takeEvents_bufferKept {es : List Event} {s t : State} (hs : Inv s) (hp : s.phase ≠ .idle)
    (hreset : ∀ e ∈ es, e ≠ .reset) (h : takeEvents es s = .next t) : BufferKept s t ∧ t.phase ≠ .idle := by
  induction es generalizing s with
  | nil => cases h; exact ⟨(SameBuffer.refl _).kept, hp⟩
  | cons e es ih =>
    obtain ⟨u, hu, ht⟩ := andThen_eq_next h
    obtain ⟨hne, hrest⟩ := List.forall_mem_cons.mp hreset
    obtain ⟨hkept, hbusy⟩ := ih (inv_takeEvent hs hu) (takeEvent_ne_idle hp hne hu) hrest ht
    exact ⟨(takeEvent_bufferKept hs hp hne hu).trans hkept, hbusy⟩

/-- Settles O43: each event keeps RCUR, COUNT and a FULL buffer, by induction over the events. -/
theorem readCursorFixedAfterArm : Obligations.ReadCursorFixedAfterArm := by
  intro es s t hs hp hreset h
  obtain ⟨hkept, hbusy⟩ := takeEvents_bufferKept hs hp hreset h
  exact ⟨hkept.rcur, hbusy, hkept.count_le, fun hfull => ⟨hkept.isFull hfull, hkept.full hfull⟩⟩

/-! ### ARM -/

theorem exec_arm_idle {s : State} (h : s.phase = .idle) :
    exec .arm s = .next (s.armTransfer s.rcur (capCount s.params)) := by simp [exec, execArm, h]

theorem exec_arm_refused {s : State} (h : s.phase ≠ .idle) : exec .arm s = .next s.setBadcmd := by
  simp [exec, execArm, h]

/-- Settles O30: ARM arms a transfer in IDLE and is `BADCMD <- 1` outside it. -/
theorem armStartsFullLap : Obligations.ArmStartsFullLap := by
  intro s
  split
  · next hidle => exact ⟨_, exec_arm_idle hidle, rfl, capCount_toNat s.params, rfl, rfl, rfl⟩
  · next hbusy => exact ⟨_, exec_arm_refused hbusy, rfl⟩

/-! ### The Engine's steps -/

theorem engineTurn_of_not_enabled {s : State} (h : engineEnabled s = false) : engineTurn s = s := by
  unfold engineEnabled at h
  unfold engineTurn
  cases hc : engineCandidate s with
  | none => rfl
  | some e =>
    simp only [hc] at h ⊢
    rw [h]
    rfl

theorem engineEnabled_armed {s : State} (h : s.phase = .armed) :
    engineEnabled s = (decide (s.xcnt.toNat < s.xlen.toNat) && s.sinkHasRoom) := by
  simp [engineEnabled, engineCandidate, h, EngineStep.enabled]

/-- Settles O32: without room in SFIFO the Engine has no step in ARMED. -/
theorem engineWaitsForRoom : Obligations.EngineWaitsForRoom := by
  intro s hp hfull
  have hroom : s.sinkHasRoom = false := decide_eq_false (Nat.not_lt.mpr hfull)
  have hnone : engineEnabled s = false := by rw [engineEnabled_armed hp, hroom, Bool.and_false]
  rw [takeEvent, engineTurn_of_not_enabled hnone]

/-- The count before its last word is XLEN - 1 as a number too. -/
theorem xcnt_succ_eq_xlen_iff {s : State} (h : s.xcnt.toNat < s.xlen.toNat) :
    s.xcnt + 1 = s.xlen ↔ s.xcnt.toNat + 1 = s.xlen.toNat := by
  rw [← BitVec.toNat_inj, xcnt_succ_toNat h]

theorem stepFetch_phase {s : State} (hp : s.phase = .armed) (h : s.xcnt.toNat < s.xlen.toNat) :
    (stepFetch s).phase = if s.xcnt.toNat + 1 = s.xlen.toNat then .cAck else .armed := by
  rw [stepFetch_eq]
  simp only [xcnt_succ_eq_xlen_iff h, hp]

theorem stepFetch_xcnt {s : State} (h : s.xcnt.toNat < s.xlen.toNat) :
    (stepFetch s).xcnt.toNat = s.xcnt.toNat + 1 := by
  rw [stepFetch_eq]
  exact xcnt_succ_toNat h

/-- Both halves of a sink word are its sample (R177). -/
theorem sinkWord_halves (x : Sample) : (sinkWord x).extractLsb' 16 16 = x ∧ (sinkWord x).extractLsb' 0 16 = x :=
  ⟨BitVec.extractLsb'_append_eq_left, BitVec.extractLsb'_append_eq_right⟩

/-- Settles O31: the Engine's turn is FETCH, and FETCH's word is the slot's sink word. -/
theorem fetchSendsOneWord : Obligations.FetchSendsOneWord := by
  intro s hp hlt hroom
  obtain ⟨hhigh, hlow⟩ := sinkWord_halves (s.slot (fetchIndex s))
  refine ⟨_, _, takeEvent_engine_fetch hp hlt hroom, stepFetch_sfifo s, hhigh, hlow, stepFetch_xcnt hlt,
    stepFetch_phase hp hlt, ?_⟩
  rw [stepFetch_eq]

/-- Every slot is at some distance below CAP from a cursor. -/
theorem exists_slotIndex {cap i : Nat} (x : Nat) (hi : i < cap) : ∃ j, j < cap ∧ (x + j) % cap = i := by
  have hpos : 0 < cap := Nat.zero_lt_of_lt hi
  have hx : x % cap < cap := Nat.mod_lt x hpos
  refine ⟨(i + cap - x % cap) % cap, Nat.mod_lt _ hpos, ?_⟩
  rw [Nat.add_mod_mod, ← Nat.mod_add_mod, Nat.add_sub_cancel' (by omega), Nat.add_mod_right, Nat.mod_eq_of_lt hi]

/-- A count below CAP fits XCNT, so FETCH's index at it is that many slots on from XSRC. -/
theorem fetchIndex_setXcnt (s : State) {k : Nat} (hk : k < s.params.cap) :
    fetchIndex (s.setXcnt (BitVec.ofNat 17 k)) = (s.xsrc.toNat + k) % s.params.cap := by
  have hcap := s.params.cap_le
  have hfits : k % 2 ^ 17 = k := Nat.mod_eq_of_lt (by omega)
  rw [fetchIndex, State.setXcnt_xsrc, State.setXcnt_xcnt, State.setXcnt_params, BitVec.toNat_ofNat, hfits]

/-- Settles O33: each slot is some distance below CAP from XSRC, and different distances are different slots. -/
theorem lapReadsEverySlotOnce : Obligations.LapReadsEverySlotOnce := by
  intro s i hi
  obtain ⟨j, hj, hslot⟩ := exists_slotIndex s.xsrc.toNat hi
  refine ⟨j, ⟨hj, (fetchIndex_setXcnt s hj).trans hslot⟩, fun k hk heq => ?_⟩
  rw [fetchIndex_setXcnt s hk, ← hslot] at heq
  exact slotIndex_inj hk hj heq

theorem takeEvent_engine_ack {s : State} (hp : s.phase = .cAck) : takeEvent .engine s = .next (stepAck s) := by
  simp [takeEvent, engineTurn, engineCandidate, hp, EngineStep.enabled, EngineStep.run]

theorem takeEvent_engine_adv {s : State} (hp : s.phase = .cAdv) : takeEvent .engine s = .next (stepAdv s) := by
  simp [takeEvent, engineTurn, engineCandidate, hp, EngineStep.enabled, EngineStep.run]

theorem takeEvent_engine_rearm {s : State} (hp : s.phase = .cRearm) : takeEvent .engine s = .next (stepRearm s) := by
  simp [takeEvent, engineTurn, engineCandidate, hp, EngineStep.enabled, EngineStep.run]

/-- Settles O34: the Engine's turn is ACK, ADV or REARM, and an advance by CAP is none. -/
theorem handlerStepsDoTheirWork : Obligations.HandlerStepsDoTheirWork := by
  refine fun s => ⟨takeEvent_engine_ack, fun hp => ?_, fun hp => ?_⟩
  · exact ⟨_, takeEvent_engine_adv hp, wrapAdd_toNat s.params s.rcur _, rfl, rfl, stepAdv_rcur⟩
  · exact ⟨_, takeEvent_engine_rearm hp, rfl, capCount_toNat s.params, rfl, rfl, rfl⟩

/-! ### CONSUME -/

/-- Settles O39: the Sink's turn takes the head of SFIFO, where there is one. -/
theorem consumePlaysOldestWord : Obligations.ConsumePlaysOldestWord := by
  refine fun s => ⟨fun w rest hf => ?_, fun hf => ?_⟩
  · simp [takeEvent, sinkTurn, consumeEnabled, hf, stepConsume, State.sinkPop]
  · simp [takeEvent, sinkTurn, consumeEnabled, hf]

/-! ### WCUR and the Engine (R189) -/

theorem enabled_setWcur (e : EngineStep) (s : State) (c : Cursor) : e.enabled (s.setWcur c) = e.enabled s := by
  cases e <;> rfl

theorem run_setWcur (e : EngineStep) (s : State) (c : Cursor) : e.run (s.setWcur c) = (e.run s).setWcur c := by
  cases e with
  | fetch =>
    simp only [EngineStep.run, stepFetch_eq]
    rfl
  | ack => rfl
  | adv => rfl
  | rearm => rfl

/-- Settles O38: WCUR decides neither which step is enabled nor what the step does. -/
theorem engineIgnoresWriteCursor : Obligations.EngineIgnoresWriteCursor := by
  intro s c
  have hcandidate : engineCandidate (s.setWcur c) = engineCandidate s := rfl
  unfold engineTurn
  rw [hcandidate]
  cases engineCandidate s with
  | none => rfl
  | some e =>
    dsimp only
    rw [enabled_setWcur, run_setWcur, apply_ite (State.setWcur · c)]

/-! ### The phases (R170) -/

/-- A command leaves PHASE, or is ARM in IDLE. -/
theorem exec_phase {i : Instr} {s t : State} (h : exec i s = .next t) :
    t.phase = s.phase ∨ (i = .arm ∧ s.phase = .idle ∧ t.phase = .armed) := by
  obtain rfl | ⟨_, rfl⟩ | ⟨b, _, rfl⟩ | rfl | ⟨n, _, _, rfl⟩ | ⟨harm, hidle, rfl⟩ | ⟨v, hv⟩ | ⟨v, hv⟩ := exec_cases h
  · exact .inl rfl
  · exact .inl rfl
  · exact .inl rfl
  · exact .inl rfl
  · exact .inl rfl
  · exact .inr ⟨harm, hidle, rfl⟩
  · exact .inl (tryWrite_hostFrame hv).sameTransfer.phase
  · exact .inl (tryWrite_hostFrame hv).sameTransfer.phase

theorem busAccess_phase {a : Access} {s t : State} (h : busAccess a s = .next t) :
    t.phase = s.phase ∨ (s.phase = .idle ∧ t.phase = .armed ∧
      ∃ bytes, a = .write s.params.base bytes ∧ decode (wordOfBytes bytes) = .cmd .arm) := by
  obtain rfl | ⟨bytes, rfl⟩ | ⟨bytes, ha, _, hw⟩ := busAccess_cases h
  · exact .inl rfl
  · exact .inl rfl
  · obtain ⟨i, hd, hi⟩ | ⟨_, rfl⟩ := runCommand_cases hw
    · obtain hsame | ⟨rfl, hidle, harmed⟩ := exec_phase hi
      · exact .inl hsame
      · exact .inr ⟨hidle, harmed, bytes, ha, hd⟩
    · exact .inl rfl

/-- Each of the Engine's steps goes on to the next PHASE; of the FETCHes only the last one does. -/
theorem engineTurn_phase (s : State) :
    (engineTurn s).phase = s.phase ∨
    (s.phase = .armed ∧ (engineTurn s).phase = .cAck ∧ s.xcnt.toNat + 1 = s.xlen.toNat) ∨
    (s.phase = .cAck ∧ (engineTurn s).phase = .cAdv) ∨ (s.phase = .cAdv ∧ (engineTurn s).phase = .cRearm) ∨
    (s.phase = .cRearm ∧ (engineTurn s).phase = .armed) := by
  obtain ⟨_, h⟩ | ⟨hp, hlt, _, h⟩ | ⟨hp, h⟩ | ⟨hp, h⟩ | ⟨hp, h⟩ := engineTurn_cases s <;> rw [h]
  · exact .inl rfl
  · rw [stepFetch_phase hp hlt]
    split
    · next hlast => exact .inr (.inl ⟨hp, rfl, hlast⟩)
    · exact .inl hp.symm
  · exact .inr (.inr (.inl ⟨hp, rfl⟩))
  · exact .inr (.inr (.inr (.inl ⟨hp, rfl⟩)))
  · exact .inr (.inr (.inr (.inr ⟨hp, rfl⟩)))

theorem engineTurn_idle {s : State} (h : s.phase = .idle) : engineTurn s = s := by
  simp [engineTurn, engineCandidate, h]

/-- Settles O36: the Host's ARM, the Engine's steps and reset are the table's rows; the Sink leaves PHASE. -/
theorem phaseTransitions : Obligations.PhaseTransitions := by
  refine fun e s t h => ⟨?_, fun he hidle => ?_⟩
  · cases e with
    | host a =>
      obtain hsame | ⟨hidle, harmed, bytes, rfl, hd⟩ := busAccess_phase h
      · exact .inl hsame
      · exact .inr (.inl ⟨hidle, harmed, bytes, rfl, hd⟩)
    | engine =>
      cases h
      obtain hsame | ⟨hp, hp', hlast⟩ | ⟨hp, hp'⟩ | ⟨hp, hp'⟩ | ⟨hp, hp'⟩ := engineTurn_phase s
      · exact .inl hsame
      · exact .inr (.inr (.inl ⟨hp, hp', rfl, hlast⟩))
      · exact .inr (.inr (.inr (.inl ⟨hp, hp', rfl⟩)))
      · exact .inr (.inr (.inr (.inr (.inl ⟨hp, hp', rfl⟩))))
      · exact .inr (.inr (.inr (.inr (.inr (.inl ⟨hp, hp', rfl⟩)))))
    | sink => cases h; exact .inl (sinkTurn_sameTransfer s).phase
    | reset => cases h; exact .inr (.inr (.inr (.inr (.inr (.inr ⟨rfl, rfl⟩)))))
  · subst he
    cases h
    exact engineTurn_idle hidle

/-! ### Events between the Engine's turns -/

/-- Outside IDLE events of the Host and the Sink leave the transfer. -/
theorem takeEvents_sameTransfer {es : List Event} {s : State} (hs : Inv s) (hp : s.phase ≠ .idle)
    (hes : ∀ e ∈ es, e ≠ .engine ∧ e ≠ .reset) : ∃ t, takeEvents es s = .next t ∧ Inv t ∧ SameTransfer s t := by
  induction es generalizing s with
  | nil => exact ⟨s, rfl, hs, .refl s⟩
  | cons e es ih =>
    obtain ⟨⟨he, hne⟩, hrest⟩ := List.forall_mem_cons.mp hes
    have ⟨⟨hw, _⟩, _⟩ := hs
    obtain ⟨u, hu⟩ := takeEvent_completes e hw
    have hsame := takeEvent_sameTransfer hp he hne hu
    obtain ⟨t, ht, hinv, hsame'⟩ := ih (inv_takeEvent hs hu) (hsame.phase ▸ hp) hrest
    exact ⟨t, (takeEvents_cons hu es).trans ht, hinv, hsame.trans hsame'⟩

/-- After such events the Engine's turn finds the transfer as it was. -/
theorem takeEvents_then_engine {es : List Event} {s : State} (hs : Inv s) (hp : s.phase ≠ .idle)
    (hes : ∀ e ∈ es, e ≠ .engine ∧ e ≠ .reset) :
    ∃ t, Inv t ∧ SameTransfer s t ∧ takeEvents (es ++ [.engine]) s = takeEvent .engine t := by
  obtain ⟨t, ht, hinv, hsame⟩ := takeEvents_sameTransfer hs hp hes
  exact ⟨t, hinv, hsame, (takeEvents_append_of_next ht _).trans (takeEvents_singleton _ t)⟩

/-- Settles O35: ACK, ADV and REARM are the Engine's turns in their phases, which no other agent leaves. -/
theorem rearmAfterCompletion : Obligations.RearmAfterCompletion := by
  intro s h1 h2 h3 hs hp hes
  simp only [List.forall_mem_append] at hes
  obtain ⟨⟨hes1, hes2⟩, hes3⟩ := hes
  obtain ⟨a, hinvA, ha, hturnA⟩ := takeEvents_then_engine hs (hp.trans_ne nofun) hes1
  have hpA : a.phase = .cAck := ha.phase.trans hp
  obtain ⟨b, hinvB, hb, hturnB⟩ := takeEvents_then_engine (s := stepAck a) (inv_stepAck hinvA hpA) nofun hes2
  have hpB : b.phase = .cAdv := hb.phase
  obtain ⟨c, _, hc, hturnC⟩ := takeEvents_then_engine (s := stepAdv b) (inv_stepAdv hinvB hpB) nofun hes3
  have hpC : c.phase = .cRearm := hc.phase
  have hrcur : c.rcur = s.rcur :=
    calc c.rcur = (stepAdv b).rcur := hc.rcur
      _ = b.rcur := stepAdv_rcur_of_inv hinvB hpB
      _ = a.rcur := hb.rcur
      _ = s.rcur := ha.rcur
  have hparams : c.params = s.params := hc.params.trans (hb.params.trans ha.params)
  refine ⟨stepAck a, stepAdv b, stepRearm c, hturnA.trans (takeEvent_engine_ack hpA), rfl,
    hturnB.trans (takeEvent_engine_adv hpB), rfl, hturnC.trans (takeEvent_engine_rearm hpC), rfl, ?_, hrcur, hrcur, rfl⟩
  rw [← hparams]
  exact capCount_toNat c.params

/-! ### A Sink that does not consume (R187) -/

/-- The Engine waits in ARMED for room in a full SFIFO (R174). -/
structure Stalled (s : State) : Prop where
  inv : Inv s
  armed : s.phase = .armed
  full : s.sfifo.length = s.params.sinkDepth

/-- Only the Sink and reset end the wait; until then the transfer and the sink stand still. -/
theorem Stalled.takeEvent {e : Event} {s : State} (h : Stalled s) (he : e ≠ .sink) (hne : e ≠ .reset) :
    ∃ t, takeEvent e s = .next t ∧ Stalled t ∧ SameTransfer s t ∧ t.sfifo = s.sfifo ∧ t.out = s.out := by
  cases e with
  | host a =>
    have ⟨⟨hw, _⟩, _⟩ := h.inv
    obtain ⟨t, ht⟩ := busAccess_completes a hw
    have hframe := busAccess_hostFrame_of_ne_idle (h.armed.trans_ne nofun) ht
    have hsame := hframe.sameTransfer
    obtain ⟨hsfifo, hout⟩ := hframe.sink
    refine ⟨t, ht, ⟨inv_busAccess h.inv ht, hsame.phase.trans h.armed, ?_⟩, hsame, hsfifo, hout⟩
    rw [hsfifo, hsame.params, h.full]
  | engine => exact ⟨s, engineWaitsForRoom s h.armed h.full.ge, h, .refl s, rfl, rfl⟩
  | sink => exact absurd rfl he
  | reset => exact absurd rfl hne

theorem Stalled.takeEvents {es : List Event} {s : State} (h : Stalled s) (hes : ∀ e ∈ es, e ≠ .sink ∧ e ≠ .reset) :
    ∃ t, takeEvents es s = .next t ∧ Stalled t ∧ SameTransfer s t ∧ t.sfifo = s.sfifo ∧ t.out = s.out := by
  induction es generalizing s with
  | nil => exact ⟨s, rfl, h, .refl s, rfl, rfl⟩
  | cons e es ih =>
    obtain ⟨⟨he, hne⟩, hrest⟩ := List.forall_mem_cons.mp hes
    obtain ⟨u, hu, hstalled, hsame, hsfifo, hout⟩ := h.takeEvent he hne
    obtain ⟨t, ht, hstalled', hsame', hsfifo', hout'⟩ := ih hstalled hrest
    exact ⟨t, (takeEvents_cons hu es).trans ht, hstalled', hsame.trans hsame', hsfifo'.trans hsfifo, hout'.trans hout⟩

/-- Settles O46: in ARMED with a full SFIFO the Engine is stalled, and it stays so. -/
theorem stalledSinkHangsEngine : Obligations.StalledSinkHangsEngine := by
  intro es s hs hp hfull hes
  obtain ⟨t, ht, hstalled, hsame, hsfifo, hout⟩ := Stalled.takeEvents ⟨hs, hp, hfull⟩ hes
  exact ⟨t, ht, hstalled.armed, hsame.xcnt, hsfifo, hout⟩

end Sys2Proof.Machine
end

section
/-! PROOFS. Completion comes again and again (spec/42_streaming.md R187, spec/70_reset_and_hazards.md R266): the rule by which
weak fairness gives an agent its turn, and how many of the Engine's steps are left until the completion signal. -/

namespace Sys2Proof.Machine

/-! ### Endless schedules -/

theorem play_succ {σ : Nat → Event} {n : Nat} {s t : State} (h : play σ n s = .next t) :
    play σ (n + 1) s = takeEvent (σ n) t := by rw [play, h, andThen_next]

theorem play_inv (σ : Nat → Event) {s : State} (hs : Inv s) (n : Nat) : ∃ t, play σ n s = .next t ∧ Inv t := by
  induction n with
  | zero => exact ⟨s, rfl, hs⟩
  | succ n ih =>
    obtain ⟨t, ht, hinv⟩ := ih
    have ⟨⟨hw, _⟩, _⟩ := hinv
    obtain ⟨u, hu⟩ := takeEvent_completes (σ n) hw
    exact ⟨u, by rw [play_succ ht, hu], inv_takeEvent hinv hu⟩

/-- Weak fairness as a rule (R266): where `P` enables the agent's step and every other event keeps `P`, the agent has a turn
at which `P` still holds. -/
theorem WeaklyFair.exists_turn {σ : Nat → Event} {s : State} {e : Event} {enabled : State → Bool}
    (hfair : WeaklyFair σ s e enabled) (hs : Inv s) {P : State → Prop} (henabled : ∀ t, P t → enabled t = true)
    (hkeep : ∀ m t t', σ m ≠ e → P t → takeEvent (σ m) t = .next t' → P t') {n : Nat} {u : State}
    (hu : play σ n s = .next u) (hP : P u) : ∃ m t, n ≤ m ∧ σ m = e ∧ play σ m s = .next t ∧ P t := by
  have hold (k : Nat) (hno : ∀ i, i < k → σ (n + i) ≠ e) : ∃ t, play σ (n + k) s = .next t ∧ P t := by
    induction k with
    | zero => exact ⟨u, hu, hP⟩
    | succ k ih =>
      obtain ⟨t, ht, hPt⟩ := ih fun i hi => hno i (Nat.lt_succ_of_lt hi)
      obtain ⟨t', ht', _⟩ := play_inv σ hs (n + k + 1)
      exact ⟨t', ht', hkeep _ t t' (hno k (Nat.lt_succ_self k)) hPt ((play_succ ht).symm.trans ht')⟩
  have hturn : ∃ k, σ (n + k) = e := by
    by_contra hno
    have hnever : ∀ k, σ (n + k) ≠ e := not_exists.mp hno
    obtain ⟨m, hm, hme⟩ := hfair n fun m t hm ht => by
      obtain ⟨k, rfl⟩ := Nat.exists_eq_add_of_le hm
      obtain ⟨t', ht', hPt⟩ := hold k fun i _ => hnever i
      cases ht.symm.trans ht'
      exact henabled t hPt
    obtain ⟨k, rfl⟩ := Nat.exists_eq_add_of_le hm
    exact hnever k hme
  obtain ⟨t, ht, hPt⟩ := hold (Nat.find hturn) fun i hi => Nat.find_min hturn hi
  exact ⟨_, t, Nat.le_add_right _ _, Nat.find_spec hturn, ht, hPt⟩

/-! ### The Engine's steps that are left -/

/-- How many of its steps the Engine has left until the completion signal is up. -/
def untilCompletion (s : State) : Nat :=
  match s.phase with
  | .idle => 0
  | .armed => s.params.cap - s.xcnt.toNat
  | .cAck => 0
  | .cAdv => s.params.cap + 2
  | .cRearm => s.params.cap + 1

theorem SameTransfer.untilCompletion {s t : State} (h : SameTransfer s t) : untilCompletion t = untilCompletion s := by
  simp only [Machine.untilCompletion, h.phase, h.params, h.xcnt]

/-- An RBC outside IDLE whose completion signal is `d` of the Engine's steps away. -/
structure Awaiting (d : Nat) (s : State) : Prop where
  inv : Inv s
  busy : s.phase ≠ .idle
  left : untilCompletion s = d

theorem Awaiting.cpend {s : State} (h : Awaiting 0 s) : s.cpend = true := by
  have hleft := h.left
  unfold untilCompletion at hleft
  cases hp : s.phase with
  | idle => exact absurd hp h.busy
  | armed =>
    have hlt := xcnt_lt_xlen h.inv hp
    rw [xlen_toNat h.inv h.busy] at hlt
    simp only [hp] at hleft
    omega
  | cAck => simp [State.cpend, hp]
  | cAdv => simp [hp] at hleft
  | cRearm => simp [hp] at hleft

theorem Awaiting.takeEvent {d : Nat} {e : Event} {s t : State} (h : Awaiting d s) (he : e ≠ .engine) (hne : e ≠ .reset)
    (ht : takeEvent e s = .next t) : Awaiting d t :=
  have hsame := takeEvent_sameTransfer h.busy he hne ht
  ⟨inv_takeEvent h.inv ht, takeEvent_ne_idle h.busy hne ht, hsame.untilCompletion.trans h.left⟩

/-- Each step the Engine takes brings completion one step nearer. -/
theorem Awaiting.engineTurn {d : Nat} {s : State} (h : Awaiting (d + 1) s) (henabled : engineEnabled s = true) :
    Awaiting d (engineTurn s) := by
  refine ⟨inv_engineTurn h.inv, engineTurn_ne_idle h.busy, ?_⟩
  have hleft := h.left
  unfold untilCompletion at hleft ⊢
  obtain ⟨hnone, _⟩ | ⟨hp, hlt, _, hturn⟩ | ⟨hp, _⟩ | ⟨hp, hturn⟩ | ⟨hp, hturn⟩ := engineTurn_cases s
  · rw [hnone] at henabled
    cases henabled
  · simp only [hp] at hleft
    have hlen := xlen_toNat h.inv h.busy
    have hparams : (stepFetch s).params = s.params := by rw [stepFetch_eq]
    rw [hturn, stepFetch_phase hp hlt, stepFetch_xcnt hlt, hparams]
    by_cases hlast : s.xcnt.toNat + 1 = s.xlen.toNat
    · simp only [if_pos hlast]
      omega
    · simp only [if_neg hlast]
      omega
  · simp [hp] at hleft
  · simp only [hp] at hleft
    rw [hturn]
    exact Nat.succ.inj hleft
  · simp only [hp] at hleft
    rw [hturn]
    exact Nat.succ.inj hleft

/-! ### The Engine's wait for room ends -/

/-- Outside IDLE the Engine waits for nothing but room in SFIFO. -/
theorem engineEnabled_iff {s : State} (hs : Inv s) (hbusy : s.phase ≠ .idle) :
    engineEnabled s = true ↔ (s.phase = .armed → s.sfifo.length < s.params.sinkDepth) := by
  cases hp : s.phase with
  | idle => exact absurd hp hbusy
  | armed => simp [engineEnabled_armed hp, xcnt_lt_xlen hs hp, State.sinkHasRoom]
  | cAck => simp [engineEnabled, engineCandidate, EngineStep.enabled, hp]
  | cAdv => simp [engineEnabled, engineCandidate, EngineStep.enabled, hp]
  | cRearm => simp [engineEnabled, engineCandidate, EngineStep.enabled, hp]

theorem stalled_of_not_enabled {s : State} (hs : Inv s) (hbusy : s.phase ≠ .idle) (h : engineEnabled s ≠ true) :
    Stalled s := by
  rw [ne_eq, engineEnabled_iff hs hbusy, Classical.not_imp] at h
  obtain ⟨harmed, hfull⟩ := h
  have ⟨_, _, _, hsink, _⟩ := hs
  exact ⟨hs, harmed, Nat.le_antisymm hsink (Nat.not_lt.mp hfull)⟩

theorem Stalled.consumeEnabled {s : State} (h : Stalled s) : consumeEnabled s = true := by
  have hpos := s.params.one_le_sinkDepth
  have hne : s.sfifo ≠ [] := List.ne_nil_of_length_pos (h.full ▸ hpos)
  simp [Machine.consumeEnabled, hne]

theorem sinkTurn_sfifo (s : State) : (sinkTurn s).sfifo = s.sfifo.tail := by
  obtain ⟨hf, h⟩ | ⟨w, rest, hf, h⟩ := sinkTurn_cases s <;> rw [h, hf] <;> rfl

/-- Only the Engine's turn lengthens SFIFO. -/
theorem takeEvent_sfifo_length_le {e : Event} {s t : State} (he : e ≠ .engine) (ht : takeEvent e s = .next t) :
    t.sfifo.length ≤ s.sfifo.length := by
  cases e with
  | host a => rw [(busAccess_sink ht).1]
  | engine => exact absurd rfl he
  | sink =>
    cases ht
    rw [sinkTurn_sfifo, List.length_tail]
    exact Nat.sub_le _ _
  | reset => cases ht; exact le_rfl

/-- Once the Engine has a step, no event but its own turn and reset takes it away. -/
theorem engineEnabled_takeEvent {e : Event} {s t : State} (hs : Inv s) (hbusy : s.phase ≠ .idle) (he : e ≠ .engine)
    (hne : e ≠ .reset) (ht : takeEvent e s = .next t) (h : engineEnabled s = true) : engineEnabled t = true := by
  have hsame := takeEvent_sameTransfer hbusy he hne ht
  have hshort := takeEvent_sfifo_length_le he ht
  rw [engineEnabled_iff hs hbusy] at h
  rw [engineEnabled_iff (inv_takeEvent hs ht) (takeEvent_ne_idle hbusy hne ht), hsame.phase, hsame.params]
  exact fun harmed => hshort.trans_lt (h harmed)

/-- The Sink's turn makes room for the Engine that waits. -/
theorem Stalled.engineEnabled_sinkTurn {s : State} (h : Stalled s) : engineEnabled (sinkTurn s) = true := by
  have hsame := sinkTurn_sameTransfer s
  have hpos := s.params.one_le_sinkDepth
  have hfull := h.full
  have hbusy : (sinkTurn s).phase ≠ .idle := (hsame.phase.trans h.armed).trans_ne nofun
  rw [engineEnabled_iff (inv_sinkTurn h.inv) hbusy, sinkTurn_sfifo, List.length_tail, hsame.params]
  omega

section
variable {σ : Nat → Event} {s : State}

/-- Under weak fairness of the Sink the Engine has a step sooner or later. -/
theorem exists_engineEnabled (hs : Inv s) (hreset : ∀ n, σ n ≠ .reset)
    (hsink : WeaklyFair σ s .sink consumeEnabled) {d n : Nat} {u : State} (hu : play σ n s = .next u)
    (h : Awaiting d u) : ∃ m t, n ≤ m ∧ play σ m s = .next t ∧ Awaiting d t ∧ engineEnabled t = true := by
  by_cases henabled : engineEnabled u = true
  · exact ⟨n, u, le_rfl, hu, h, henabled⟩
  · have hkeep (m : Nat) (t t' : State) (he : σ m ≠ .sink) (hP : Awaiting d t ∧ Stalled t)
        (ht : takeEvent (σ m) t = .next t') : Awaiting d t' ∧ Stalled t' := by
      obtain ⟨v, hv, hstalled, hsame, _⟩ := hP.2.takeEvent he (hreset m)
      cases ht.symm.trans hv
      exact ⟨⟨hstalled.inv, hsame.phase ▸ hP.1.busy, hsame.untilCompletion.trans hP.1.left⟩, hstalled⟩
    obtain ⟨m, t, hm, he, ht, hwait, hstalled⟩ := hsink.exists_turn hs (fun t hP => hP.2.consumeEnabled) hkeep hu
      ⟨h, stalled_of_not_enabled h.inv h.busy henabled⟩
    refine ⟨m + 1, sinkTurn t, Nat.le_succ_of_le hm, by rw [play_succ ht, he]; rfl, ?_, hstalled.engineEnabled_sinkTurn⟩
    exact hwait.takeEvent (e := .sink) nofun nofun rfl

/-- Under weak fairness of the Engine and the Sink completion comes one step nearer. -/
theorem exists_awaiting_pred (hs : Inv s) (hreset : ∀ n, σ n ≠ .reset)
    (hengine : WeaklyFair σ s .engine engineEnabled) (hsink : WeaklyFair σ s .sink consumeEnabled) {d n : Nat}
    {u : State} (hu : play σ n s = .next u) (h : Awaiting (d + 1) u) :
    ∃ m t, n ≤ m ∧ play σ m s = .next t ∧ Awaiting d t := by
  obtain ⟨k, v, hk, hv, hwait, henabled⟩ := exists_engineEnabled hs hreset hsink hu h
  have hkeep (m : Nat) (t t' : State) (he : σ m ≠ .engine) (hP : Awaiting (d + 1) t ∧ engineEnabled t = true)
      (ht : takeEvent (σ m) t = .next t') : Awaiting (d + 1) t' ∧ engineEnabled t' = true :=
    ⟨hP.1.takeEvent he (hreset m) ht, engineEnabled_takeEvent hP.1.inv hP.1.busy he (hreset m) ht hP.2⟩
  obtain ⟨m, t, hm, he, ht, hwait', henabled'⟩ := hengine.exists_turn hs (fun t hP => hP.2) hkeep hv ⟨hwait, henabled⟩
  exact ⟨m + 1, engineTurn t, by omega, by rw [play_succ ht, he]; rfl, hwait'.engineTurn henabled'⟩

theorem exists_completion (hs : Inv s) (hreset : ∀ n, σ n ≠ .reset)
    (hengine : WeaklyFair σ s .engine engineEnabled) (hsink : WeaklyFair σ s .sink consumeEnabled) {d n : Nat}
    {u : State} (hu : play σ n s = .next u) (h : Awaiting d u) :
    ∃ m t, n ≤ m ∧ play σ m s = .next t ∧ t.cpend = true := by
  induction d generalizing n u with
  | zero => exact ⟨n, u, le_rfl, hu, h.cpend⟩
  | succ d ih =>
    obtain ⟨k, v, hk, hv, hwait⟩ := exists_awaiting_pred hs hreset hengine hsink hu h
    obtain ⟨m, t, hm, ht, hpend⟩ := ih hv hwait
    exact ⟨m, t, hk.trans hm, ht, hpend⟩

theorem play_ne_idle (hreset : ∀ n, σ n ≠ .reset) (hbusy : s.phase ≠ .idle) {n : Nat} {t : State}
    (h : play σ n s = .next t) : t.phase ≠ .idle := by
  induction n generalizing t with
  | zero => cases h; exact hbusy
  | succ n ih =>
    obtain ⟨u, hu, ht⟩ := andThen_eq_next h
    exact takeEvent_ne_idle (ih hu) (hreset n) ht

end

/-- Settles O45: at every point the completion signal is a number of the Engine's steps away, and fairness gives it them. -/
theorem completionInfinitelyOften : Obligations.CompletionInfinitelyOften := by
  intro σ s hs hbusy hreset hengine hsink n
  obtain ⟨u, hu, hinv⟩ := play_inv σ hs n
  exact exists_completion hs hreset hengine hsink hu ⟨hinv, play_ne_idle hreset hbusy hu, rfl⟩

end Sys2Proof.Machine
end

section
/-! PROOFS. The words an armed transfer sends (spec/42_streaming.md): a lap plays the ring (R172, R173, R183), and samples
pushed into an empty buffer and armed are sent and played in order (R188). -/

namespace Sys2Proof.Machine

/-! ### The words of a lap -/

/-- Word `j` from the transfer armed in `s` on: slot `(XSRC + j) mod CAP`'s sample on both channels (R172, R177). -/
def lapWord (s : State) (j : Nat) : Word := sinkWord (s.slot ((s.xsrc.toNat + j) % s.params.cap))

theorem lapWord_mod (s : State) (j : Nat) : lapWord s (j % s.params.cap) = lapWord s j := by
  rw [lapWord, lapWord, Nat.add_mod_mod]

theorem lapWords_length (s : State) (k : Nat) : (lapWords s k).length = k := by simp [lapWords]

theorem lapWords_getElem? (s : State) {j k : Nat} (h : j < k) : (lapWords s k)[j]? = some (lapWord s j) := by
  simp [lapWords, lapWord, h]

/-! ### The count of the words sent -/

/-- In ARMED XCNT is the number `n` of words sent modulo CAP, and outside ARMED whole laps have been sent. -/
structure LapCount (n : Nat) (t : State) : Prop where
  armed : t.phase = .armed → t.xcnt.toNat = n % t.params.cap
  done : t.phase ≠ .armed → 0 < n ∧ n % t.params.cap = 0

theorem SameTransfer.lapCount {n : Nat} {t t' : State} (h : SameTransfer t t') (hc : LapCount n t) : LapCount n t' := by
  constructor
  · rw [h.phase, h.xcnt, h.params]
    exact hc.armed
  · rw [h.phase, h.params]
    exact hc.done

/-- A FETCH sends the word of the count and counts it; with the last word of a lap the count is one of whole laps. -/
theorem LapCount.stepFetch {n : Nat} {t : State} (h : LapCount n t) (hs : Inv t) (hp : t.phase = .armed)
    (hlt : t.xcnt.toNat < t.xlen.toNat) :
    LapCount (n + 1) (stepFetch t) ∧ (stepFetch t).sfifo = t.sfifo ++ [lapWord t n] := by
  have hlen := xlen_toNat hs (hp.trans_ne nofun)
  have hcount := h.armed hp
  have hparams : (Machine.stepFetch t).params = t.params := by rw [stepFetch_eq]
  have hnext : (n + 1) % t.params.cap = if t.xcnt.toNat + 1 = t.params.cap then 0 else t.xcnt.toNat + 1 := by
    rw [← Nat.mod_add_mod, ← hcount, succ_mod_cap (by omega)]
  refine ⟨⟨fun harmed => ?_, fun hdone => ⟨Nat.succ_pos n, ?_⟩⟩, ?_⟩
  · rw [stepFetch_phase hp hlt, hlen] at harmed
    split at harmed
    · cases harmed
    · next hne => rw [hparams, stepFetch_xcnt hlt, hnext, if_neg hne]
  · rw [stepFetch_phase hp hlt, hlen] at hdone
    split at hdone
    · next heq => rw [hparams, hnext, if_pos heq]
    · exact absurd rfl hdone
  · rw [stepFetch_sfifo, fetchIndex, hcount, Nat.add_mod_mod, lapWord]

/-- The Engine's turn sends the next word or none. -/
theorem LapCount.engineTurn {n : Nat} {t : State} (h : LapCount n t) (hs : Inv t) :
    (LapCount n (engineTurn t) ∧ (engineTurn t).sfifo = t.sfifo) ∨
    (LapCount (n + 1) (engineTurn t) ∧ (engineTurn t).sfifo = t.sfifo ++ [lapWord t n]) := by
  obtain ⟨_, hturn⟩ | ⟨hp, hlt, _, hturn⟩ | ⟨hp, hturn⟩ | ⟨hp, hturn⟩ | ⟨hp, hturn⟩ := engineTurn_cases t <;> rw [hturn]
  · exact .inl ⟨h, rfl⟩
  · exact .inr (h.stepFetch hs hp hlt)
  · exact .inl ⟨⟨nofun, fun _ => h.done (hp.trans_ne nofun)⟩, rfl⟩
  · exact .inl ⟨⟨nofun, fun _ => h.done (hp.trans_ne nofun)⟩, rfl⟩
  · obtain ⟨_, hlap⟩ := h.done (hp.trans_ne nofun)
    exact .inl ⟨⟨fun _ => hlap.symm, fun hne => absurd rfl hne⟩, rfl⟩

/-! ### The words sent since the transfer was armed -/

/-- From the transfer newly armed in `s` on the words `ws` have been sent, and `t` is the state. -/
structure LapSent (s : State) (ws : List Word) (t : State) : Prop where
  inv : Inv t
  busy : t.phase ≠ .idle
  params : t.params = s.params
  stream : t.out ++ t.sfifo = s.out ++ s.sfifo ++ ws
  count : LapCount ws.length t

/-- An event but reset sends the word that is next or none. -/
theorem LapSent.takeEvent {e : Event} {s t t' : State} {ws : List Word} (h : LapSent s ws t) (hne : e ≠ .reset)
    (ht : takeEvent e t = .next t') : LapSent s ws t' ∨ LapSent s (ws ++ [lapWord t ws.length]) t' := by
  have hinv := inv_takeEvent h.inv ht
  have hbusy := takeEvent_ne_idle h.busy hne ht
  have hparams := (takeEvent_params ht).trans h.params
  by_cases he : e = .engine
  · subst he
    cases ht
    have hout := engineTurn_out t
    obtain ⟨hcount, hsfifo⟩ | ⟨hcount, hsfifo⟩ := h.count.engineTurn h.inv
    · exact .inl ⟨hinv, hbusy, hparams, by rw [hout, hsfifo, h.stream], hcount⟩
    · refine .inr ⟨hinv, hbusy, hparams, ?_, by rwa [List.length_append]⟩
      rw [hout, hsfifo, ← List.append_assoc, h.stream, List.append_assoc]
  · have hsame := takeEvent_sameTransfer h.busy he hne ht
    obtain ⟨_, hstream | ⟨hengine, _⟩⟩ := sinkStreamIsFifo e t t' ht
    · exact .inl ⟨hinv, hbusy, hparams, hstream.trans h.stream, hsame.lapCount h.count⟩
    · exact absurd hengine he

/-- While the lap's first `m` words stay those of the newly armed state, the words sent for them are. -/
theorem takeEvents_lapSent {s : State} (hs : Inv s) (hp : s.phase = .armed) (hx : s.xcnt = 0) {m : Nat} {es : List Event}
    (hreset : ∀ e ∈ es, e ≠ .reset)
    (hkeep : ∀ pre v, pre <+: es → takeEvents pre s = .next v → ∀ j, j < m → lapWord v j = lapWord s j) :
    ∃ ws t, takeEvents es s = .next t ∧ LapSent s ws t ∧
      ∀ j, j < ws.length → j % s.params.cap < m → ws[j]? = some (lapWord s j) := by
  induction es using List.reverseRecOn with
  | nil =>
    have hcount : LapCount 0 s := ⟨fun _ => by rw [hx, Nat.zero_mod]; rfl, fun hne => absurd hp hne⟩
    exact ⟨[], s, rfl, ⟨hs, hp.trans_ne nofun, rfl, by rw [List.append_nil], hcount⟩, nofun⟩
  | append_singleton es e ih =>
    obtain ⟨hpre, hlast⟩ := List.forall_mem_append.mp hreset
    obtain ⟨ws, t, ht, hsent, hwords⟩ :=
      ih hpre fun pre v hprefix => hkeep pre v (hprefix.trans (List.prefix_append es [e]))
    have ⟨⟨hw, _⟩, _⟩ := hsent.inv
    obtain ⟨t', ht'⟩ := takeEvent_completes e hw
    have hrun : takeEvents (es ++ [e]) s = .next t' := by
      rw [takeEvents_append_of_next ht, takeEvents_singleton, ht']
    obtain hsent' | hsent' := hsent.takeEvent (hlast e (List.mem_singleton.mpr rfl)) ht'
    · exact ⟨ws, t', hrun, hsent', hwords⟩
    · refine ⟨_, t', hrun, hsent', fun j hj hm => ?_⟩
      rw [List.length_append, List.length_singleton] at hj
      obtain hold | rfl : j < ws.length ∨ j = ws.length := by omega
      · rw [List.getElem?_append_left hold, hwords j hold hm]
      · have hword : lapWord t ws.length = lapWord s ws.length := by
          rw [← lapWord_mod t, hsent.params, hkeep es t (List.prefix_append es [e]) ht _ hm, lapWord_mod]
        rw [List.getElem?_concat_length, hword]

/-! ### A lap without Host commands -/

theorem takeEvents_slot {es : List Event} {s t : State} (hs : Inv s)
    (hes : ∀ e ∈ es, e ≠ .reset ∧ commandOf s.params e = none) (h : takeEvents es s = .next t) (a : Nat) :
    t.slot a = s.slot a := by
  induction es generalizing s with
  | nil => cases h; rfl
  | cons e es ih =>
    obtain ⟨u, hu, ht⟩ := andThen_eq_next h
    obtain ⟨⟨hne, hc⟩, hrest⟩ := List.forall_mem_cons.mp hes
    have ⟨⟨hw, _⟩, _⟩ := hs
    obtain ⟨v, hv, hframe⟩ := takeEvent_ingestFrame hne hc hw
    cases hu.symm.trans hv
    obtain ⟨hparams, _, _, _, _, _, hslot⟩ := hframe.fields
    exact (ih (inv_takeEvent hs hu) (hparams ▸ hrest) ht).trans (hslot a)

/-- Outside IDLE XSRC is RCUR, which no event but reset moves. -/
theorem takeEvents_xsrc {es : List Event} {s t : State} (hs : Inv s) (hbusy : s.phase ≠ .idle)
    (hreset : ∀ e ∈ es, e ≠ .reset) (h : takeEvents es s = .next t) : t.xsrc = s.xsrc := by
  obtain ⟨hkept, hbusy'⟩ := takeEvents_bufferKept hs hbusy hreset h
  obtain ⟨t', ht', hinv⟩ := takeEvents_inv es hs
  cases h.symm.trans ht'
  rw [xsrc_eq_rcur hinv hbusy', hkept.rcur, xsrc_eq_rcur hs hbusy]

theorem takeEvents_lapWords {s : State} (hs : Inv s) (hp : s.phase = .armed) (hx : s.xcnt = 0) {es : List Event}
    (hes : ∀ e ∈ es, e ≠ .reset ∧ commandOf s.params e = none) :
    ∃ n t, takeEvents es s = .next t ∧ LapSent s (lapWords s n) t := by
  have hbusy : s.phase ≠ .idle := hp.trans_ne nofun
  have hkeep (pre : List Event) (v : State) (hprefix : pre <+: es) (hv : takeEvents pre s = .next v) (j : Nat)
      (_ : j < s.params.cap) : lapWord v j = lapWord s j := by
    have hpre : ∀ e ∈ pre, e ≠ .reset ∧ commandOf s.params e = none := fun e he => hes e (hprefix.subset he)
    have hreset : ∀ e ∈ pre, e ≠ .reset := fun e he => (hpre e he).1
    obtain ⟨hkept, _⟩ := takeEvents_bufferKept hs hbusy hreset hv
    rw [lapWord, lapWord, takeEvents_slot hs hpre hv, takeEvents_xsrc hs hbusy hreset hv, hkept.params]
  obtain ⟨ws, t, ht, hsent, hwords⟩ := takeEvents_lapSent hs hp hx (fun e he => (hes e he).1) hkeep
  have hlap : lapWords s ws.length = ws := by
    refine List.ext_getElem? fun j => ?_
    by_cases hj : j < ws.length
    · rw [lapWords_getElem? s hj, hwords j hj (Nat.mod_lt _ s.params.cap_pos)]
    · rw [List.getElem?_eq_none (by rw [lapWords_length]; omega), List.getElem?_eq_none (by omega)]
  exact ⟨ws.length, t, ht, hlap.symm ▸ hsent⟩

/-! ### The Engine and the Sink in turn -/

theorem fetchConsume_succ (k : Nat) : fetchConsume (k + 1) = fetchConsume k ++ [.engine, .sink] := by
  induction k with
  | zero => rfl
  | succ k ih => exact congrArg (fun es => .engine :: .sink :: es) ih

theorem fetchConsume_agents {k : Nat} {e : Event} (h : e ∈ fetchConsume k) : e = .engine ∨ e = .sink := by
  induction k with
  | zero => cases h
  | succ k ih =>
    simp only [fetchConsume, List.mem_cons] at h
    obtain he | he | hrest := h
    · exact .inl he
    · exact .inr he
    · exact ih hrest

/-- A word fetched into an empty SFIFO is the one that is consumed next. -/
theorem takeEvents_fetch_consume {s : State} (hp : s.phase = .armed) (hlt : s.xcnt.toNat < s.xlen.toNat)
    (hf : s.sfifo = []) :
    takeEvents [.engine, .sink] s =
      .next { stepFetch s with sfifo := [], out := s.out ++ [sinkWord (s.slot (fetchIndex s))] } := by
  have hroom : s.sfifo.length < s.params.sinkDepth := by
    rw [hf]
    exact s.params.one_le_sinkDepth
  have hsfifo : (stepFetch s).sfifo = [sinkWord (s.slot (fetchIndex s))] := by rw [stepFetch_sfifo, hf]; rfl
  have hout : (stepFetch s).out = s.out := by rw [stepFetch_eq]
  rw [takeEvents_cons (takeEvent_engine_fetch hp hlt hroom), takeEvents_singleton,
    (consumePlaysOldestWord (stepFetch s)).1 _ _ hsfifo, hout]

/-- From an empty SFIFO `k` words more are played, up to the lap's end, where the completion signal is up. -/
theorem takeEvents_fetchConsume {s : State} (hp : s.phase = .armed) (hlt : s.xcnt.toNat < s.xlen.toNat)
    (hf : s.sfifo = []) {k : Nat} (hk : s.xcnt.toNat + k ≤ s.xlen.toNat) :
    ∃ t, takeEvents (fetchConsume k) s = .next t ∧ t.sfifo = [] ∧ t.out.length = s.out.length + k ∧
      t.xlen = s.xlen ∧ t.xcnt.toNat = s.xcnt.toNat + k ∧
      t.phase = if s.xcnt.toNat + k = s.xlen.toNat then .cAck else .armed := by
  induction k with
  | zero => exact ⟨s, rfl, hf, rfl, rfl, rfl, by rw [if_neg (by omega), hp]⟩
  | succ k ih =>
    obtain ⟨t, ht, htf, hout, hlen, hcnt, hphase⟩ := ih (by omega)
    rw [if_neg (by omega)] at hphase
    have hlt' : t.xcnt.toNat < t.xlen.toNat := by rw [hcnt, hlen]; omega
    refine ⟨_, by rw [fetchConsume_succ, takeEvents_append_of_next ht, takeEvents_fetch_consume hphase hlt' htf],
      rfl, ?_, ?_, ?_, ?_⟩
    · rw [List.length_append, hout]
      rfl
    · rw [← hlen, stepFetch_eq]
    · exact (stepFetch_xcnt hlt').trans (by rw [hcnt, Nat.add_assoc])
    · exact (stepFetch_phase hphase hlt').trans (by rw [hcnt, hlen, Nat.add_assoc])

/-- Settles O41: the words are the lap's, and as many are played as turns were taken. -/
theorem fullLapPlaysRing : Obligations.FullLapPlaysRing := by
  intro s hs hp hx
  refine ⟨fun es hes => ?_, fun hf => ?_⟩
  · obtain ⟨n, t, ht, hsent⟩ := takeEvents_lapWords hs hp hx hes
    obtain ⟨harmed, hdone⟩ := hsent.count
    rw [lapWords_length, hsent.params] at harmed hdone
    exact ⟨n, t, ht, hsent.stream, harmed, hdone⟩
  · have hlen := xlen_toNat hs (hp.trans_ne nofun)
    have hzero : s.xcnt.toNat = 0 := by rw [hx]; rfl
    have hpos := s.params.cap_pos
    obtain ⟨t, ht, htf, hout, _, _, hphase⟩ :=
      takeEvents_fetchConsume hp (by omega) hf (k := s.params.cap) (by omega)
    obtain ⟨n, t', ht', hsent⟩ := takeEvents_lapWords hs hp hx (es := fetchConsume s.params.cap) fun e he => by
      obtain rfl | rfl := fetchConsume_agents he <;> exact ⟨nofun, rfl⟩
    cases ht.symm.trans ht'
    have hstream := hsent.stream
    rw [htf, hf, List.append_nil, List.append_nil] at hstream
    have hn : n = s.params.cap := by
      rw [hstream, List.length_append, lapWords_length] at hout
      omega
    exact ⟨t, ht, hn ▸ hstream, htf, by rw [hphase, if_pos (by omega)]⟩

/-! ### Pushes and then ARM, in IDLE -/

/-- An event that writes an instruction's word executes the instruction. -/
theorem takeEvent_encoded {e : Event} {s : State} {i : Instr} (hwf : i.wf = true)
    (he : commandOf s.params e = some (encode i)) : takeEvent e s = exec i s := by
  rw [takeEvent_command he, runCommand_of_cmd (decodeOfEncodeIsIdentity i hwf)]

/-- In IDLE an event that is neither a command nor reset leaves the buffer, and moves words to the Sink at most. -/
theorem takeEvent_idle {e : Event} {s : State} (hp : s.phase = .idle) (hne : e ≠ .reset)
    (hc : commandOf s.params e = none) (hw : s.wcur.toNat < s.params.cap) :
    ∃ t, takeEvent e s = .next t ∧ t.phase = .idle ∧ SameBuffer s t ∧ t.out ++ t.sfifo = s.out ++ s.sfifo := by
  cases e with
  | host a =>
    obtain ⟨t, ht⟩ := busAccess_completes a hw
    obtain rfl | ⟨bytes, rfl⟩ := busAccess_other hc ht
    · exact ⟨_, ht, hp, .refl _, rfl⟩
    · exact ⟨_, ht, hp, ⟨rfl, rfl, rfl, rfl, rfl⟩, rfl⟩
  | engine =>
    refine ⟨s, ?_, hp, .refl s, rfl⟩
    rw [takeEvent, engineTurn_idle hp]
  | sink =>
    exact ⟨_, rfl, (sinkTurn_sameTransfer s).phase.trans hp, sinkTurn_sameBuffer s, (sinkTurn_stream s).2⟩
  | reset => exact absurd rfl hne

/-- Pushes that find room and then ARM, with other events between them, store the samples and arm a transfer; the events
`rest` come after it. -/
theorem takeEvents_pushes_arm {xs : List Sample} {es : List Event} {s : State} (hs : Inv s) (hp : s.phase = .idle)
    (hroom : xs.length ≤ s.free) (hreset : ∀ e ∈ es, e ≠ .reset)
    (hwords : commandWords s.params es = (xs.map Instr.push ++ [Instr.arm]).map encode) :
    ∃ rest u, takeEvents es s = takeEvents rest u ∧ (∀ e ∈ rest, e ≠ .reset) ∧ Inv u ∧ u.phase = .armed ∧ u.xcnt = 0 ∧
      u.out ++ u.sfifo = s.out ++ s.sfifo ∧ SameBuffer (s.storedAll xs) u := by
  induction es generalizing xs s with
  | nil => simp [commandWords] at hwords
  | cons e es ih =>
    obtain ⟨hne, hrest⟩ := List.forall_mem_cons.mp hreset
    have ⟨⟨hw, hr, _⟩, _⟩ := hs
    cases hc : commandOf s.params e with
    | none =>
      rw [commandWords, List.filterMap_cons_none hc, ← commandWords] at hwords
      obtain ⟨t, ht, hidle, hsame, hstream⟩ := takeEvent_idle hp hne hc hw
      rw [← hsame.params] at hwords
      obtain ⟨rest, u, hu, hrest', hinv, harmed, hzero, hstream', hbuffer⟩ :=
        ih (inv_takeEvent hs ht) hidle (hsame.free ▸ hroom) hrest hwords
      exact ⟨rest, u, (takeEvents_cons ht es).trans hu, hrest', hinv, harmed, hzero, hstream'.trans hstream,
        (hsame.storedAll xs).trans hbuffer⟩
    | some w =>
      rw [commandWords, List.filterMap_cons_some hc, ← commandWords] at hwords
      cases xs with
      | nil =>
        obtain ⟨rfl, _⟩ := List.cons.inj hwords
        have ht := (takeEvent_encoded (i := .arm) rfl hc).trans (exec_arm_idle hp)
        exact ⟨es, _, takeEvents_cons ht es, hrest, inv_armTransfer hs, rfl, rfl, rfl, rfl, rfl, rfl, rfl, rfl⟩
      | cons x xs =>
        obtain ⟨rfl, hwords'⟩ := List.cons.inj hwords
        rw [List.length_cons] at hroom
        have hpos : 0 < s.free := by omega
        have hfree := State.stored_free x hpos
        have ht := (takeEvent_encoded (i := .push x) rfl hc).trans
          (exec_push_room x ((State.isFull_eq_false_iff hw hr).mpr hpos) hw)
        obtain ⟨rest, u, hu, hafter⟩ := ih (s := s.stored x) (inv_stored hs x) hp (by omega) hrest hwords'
        exact ⟨rest, u, (takeEvents_cons ht es).trans hu, hafter⟩

/-! ### The samples' words -/

/-- A transfer is newly armed in `u`, and the buffer holds the samples `xs`, oldest first. -/
structure Loaded (xs : List Sample) (u : State) : Prop where
  inv : Inv u
  armed : u.phase = .armed
  fresh : u.xcnt = 0
  held : xs.length ≤ u.count
  words : ∀ (j : Nat) (h : j < xs.length), lapWord u j = sinkWord xs[j]

theorem Loaded.busy {xs : List Sample} {u : State} (h : Loaded xs u) : u.phase ≠ .idle := h.armed.trans_ne nofun

theorem Loaded.of_storedAll {xs : List Sample} {s u : State} (hs : Inv s) (hempty : s.isEmpty = true)
    (hroom : xs.length ≤ s.free) (hinv : Inv u) (harmed : u.phase = .armed) (hzero : u.xcnt = 0)
    (h : SameBuffer (s.storedAll xs) u) : Loaded xs u := by
  have ⟨⟨hw, _⟩, _⟩ := hs
  refine ⟨hinv, harmed, hzero, ?_, fun j hj => ?_⟩
  · rw [h.count, State.storedAll_count hroom]
    exact Nat.le_add_left _ _
  · have hfree := s.count_add_free
    have hsrc : u.xsrc = s.rcur := by rw [xsrc_eq_rcur hinv (harmed.trans_ne nofun), h.rcur, State.storedAll_rcur]
    rw [lapWord, h.slot, h.params, State.storedAll_params, hsrc, ← State.isEmpty_iff.mp hempty,
      State.storedAll_slot_written hw (by omega) hj]

/-- No event but reset takes the samples from the buffer (R184), so the words sent begin with theirs. -/
theorem Loaded.takeEvents {xs : List Sample} {u : State} (h : Loaded xs u) {es : List Event}
    (hreset : ∀ e ∈ es, e ≠ .reset) :
    ∃ ws t, takeEvents es u = .next t ∧ LapSent u ws t ∧ ws.take xs.length = (xs.take ws.length).map sinkWord := by
  have hcap := u.count_lt
  have hheld := h.held
  have hkeep (pre : List Event) (v : State) (hprefix : pre <+: es) (hv : Machine.takeEvents pre u = .next v) (j : Nat)
      (hj : j < xs.length) : lapWord v j = lapWord u j := by
    have hpre : ∀ e ∈ pre, e ≠ .reset := fun e he => hreset e (hprefix.subset he)
    obtain ⟨hkept, _⟩ := takeEvents_bufferKept h.inv h.busy hpre hv
    rw [lapWord, lapWord, takeEvents_xsrc h.inv h.busy hpre hv, hkept.params, xsrc_eq_rcur h.inv h.busy,
      hkept.held j (hj.trans_le hheld)]
  obtain ⟨ws, t, ht, hsent, hwords⟩ := takeEvents_lapSent h.inv h.armed h.fresh hreset hkeep
  refine ⟨ws, t, ht, hsent, List.ext_getElem (by simp [Nat.min_comm]) fun j hj _ => ?_⟩
  rw [List.length_take] at hj
  have hmod : j % u.params.cap = j := Nat.mod_eq_of_lt (by omega)
  have hword := hwords j (by omega) (by omega)
  rw [h.words j (by omega), List.getElem?_eq_some_iff] at hword
  obtain ⟨_, hword⟩ := hword
  simpa using hword

/-- Before the lap's end XCNT is the number of words sent. -/
theorem LapSent.xcnt {s t : State} {ws : List Word} (h : LapSent s ws t) (hlt : ws.length < s.params.cap) :
    t.phase = .armed ∧ t.xcnt.toNat = ws.length := by
  have hmod : ws.length % t.params.cap = ws.length := by rw [h.params, Nat.mod_eq_of_lt hlt]
  obtain ⟨harmed, hdone⟩ := h.count
  rw [hmod] at harmed hdone
  have hp : t.phase = .armed := by
    by_contra hne
    obtain ⟨hpos, hzero⟩ := hdone hne
    omega
  exact ⟨hp, harmed hp⟩

/-! ### The Engine and the Sink can play them -/

/-- The Sink's turns play all that waits. -/
theorem takeEvents_drain {s : State} {q : List Word} (hf : s.sfifo = q) :
    takeEvents (List.replicate q.length .sink) s = .next { s with sfifo := [], out := s.out ++ q } := by
  induction q generalizing s with
  | nil =>
    rw [List.append_nil]
    exact congrArg Host.Outcome.next (by rw [← hf])
  | cons w q ih =>
    rw [List.length_cons, List.replicate_succ, takeEvents_cons ((consumePlaysOldestWord s).1 w q hf), ih rfl,
      List.append_assoc, List.singleton_append]

/-- From any point on, the Engine and the Sink can play the first `m` words of the lap. -/
theorem LapSent.exists_played {s t : State} {ws : List Word} (h : LapSent s ws t) {m : Nat} (hm : m < s.params.cap) :
    ∃ gs v, (∀ e ∈ gs, e = .engine ∨ e = .sink) ∧ takeEvents gs t = .next v ∧ v.sfifo = [] ∧
      (s.out ++ s.sfifo).length + m ≤ v.out.length := by
  have hdrain := takeEvents_drain (s := t) rfl
  have hsinks : ∀ e ∈ List.replicate t.sfifo.length Event.sink, e = .engine ∨ e = .sink :=
    fun e he => .inr (List.eq_of_mem_replicate he)
  have hlength : (t.out ++ t.sfifo).length = (s.out ++ s.sfifo).length + ws.length := by
    rw [h.stream, List.length_append]
  by_cases hall : m ≤ ws.length
  · refine ⟨_, _, hsinks, hdrain, rfl, ?_⟩
    dsimp only
    omega
  · obtain ⟨hp, hcnt⟩ := h.xcnt (by omega)
    have hlen : t.xlen.toNat = s.params.cap := by rw [xlen_toNat h.inv h.busy, h.params]
    obtain ⟨v, hv, hvf, hvout, _⟩ :=
      takeEvents_fetchConsume (s := { t with sfifo := [], out := t.out ++ t.sfifo }) hp (by dsimp only; omega) rfl
        (k := m - ws.length) (by dsimp only; omega)
    refine ⟨_, v, ?_, (takeEvents_append_of_next hdrain _).trans hv, hvf, ?_⟩
    · exact List.forall_mem_append.mpr ⟨hsinks, fun e => fetchConsume_agents⟩
    · dsimp only at hvout
      omega

/-- Settles O42: after ARM the buffer is loaded with the samples; their words are the first that are sent, and what is sent
can be played. -/
theorem roundTripPlaysSamplesInOrder : Obligations.RoundTripPlaysSamplesInOrder := by
  intro xs es fs s hs hp hempty hlen hreset hwords
  have ⟨⟨hw, hr, _⟩, _⟩ := hs
  obtain ⟨hes, hfs⟩ := List.forall_mem_append.mp hreset
  have hroom : xs.length ≤ s.free := by
    rw [State.free, (State.isEmpty_iff_count hw hr).mp hempty]
    exact hlen
  obtain ⟨rest, a, hrun, hrest, hinv, harmed, hzero, hstream, hbuffer⟩ := takeEvents_pushes_arm hs hp hroom hes hwords
  have hload : Loaded xs a := .of_storedAll hs hempty hroom hinv harmed hzero hbuffer
  have hcap : xs.length < a.params.cap := hload.held.trans_lt a.count_lt
  have hafter : ∀ e ∈ rest ++ fs, e ≠ .reset := List.forall_mem_append.mpr ⟨hrest, hfs⟩
  obtain ⟨ws, u, hu, hsent, htake⟩ := hload.takeEvents hafter
  obtain ⟨gs, v, hgs, hv, hvf, hvlen⟩ := hsent.exists_played hcap
  have hgs' : ∀ e ∈ gs, e ≠ .reset := fun e he => by obtain rfl | rfl := hgs e he <;> nofun
  obtain ⟨ws', v', hv', hsent', htake'⟩ := hload.takeEvents (List.forall_mem_append.mpr ⟨hafter, hgs'⟩)
  rw [takeEvents_append_of_next hu, hv] at hv'
  cases hv'
  have hplayed := hsent'.stream
  rw [hvf, List.append_nil, hstream] at hplayed
  have hall : xs.length ≤ ws'.length := by
    simp only [hstream, hplayed, List.length_append] at hvlen
    omega
  rw [List.take_of_length_le hall] at htake'
  refine ⟨u, ws, ?_, by rw [hsent.stream, hstream], htake, fun hle => (hsent.xcnt (hle.trans_lt hcap)).2, gs, v,
    ws'.drop xs.length, hgs, hv, ?_⟩
  · rw [takeEvents_append, hrun, ← takeEvents_append, hu]
  · have hsplit : xs.map sinkWord ++ ws'.drop xs.length = ws' := by rw [← htake', List.take_append_drop]
    calc v.out = s.out ++ s.sfifo ++ ws' := hplayed
      _ = s.out ++ s.sfifo ++ (xs.map sinkWord ++ ws'.drop xs.length) := by rw [hsplit]
      _ = s.out ++ s.sfifo ++ xs.map sinkWord ++ ws'.drop xs.length := (List.append_assoc ..).symm

end Sys2Proof.Machine
end

section
/-! PROOFS. The control statements (spec/43_control.md): NOP and the other commands that store no sample (R210), and the
Host's accesses that are no commands: register reads (R212), writes elsewhere (R213) and ill-formed accesses (R214). -/

namespace Sys2Proof.Machine

/-! ### Commands that store no sample -/

theorem exec_nop (s : State) : exec .nop s = .next s := rfl

/-- Settles O26: NOP is skip. -/
theorem nopLeavesEverything : Obligations.NopLeavesEverything := exec_nop

/-- Settles O27: each command is one named update of other elements; ADVR and ARM outside IDLE are `BADCMD <- 1`. -/
theorem commandsThatStoreNothing : Obligations.CommandsThatStoreNothing := by
  rintro i s (rfl | rfl | ⟨n, rfl⟩ | rfl)
  · exact ⟨s, exec_nop s, fun _ => rfl, rfl, rfl, rfl⟩
  · exact ⟨_, exec_inge s, s.clearPending_slot, rfl, rfl, rfl⟩
  · by_cases hidle : s.phase = .idle
    · exact ⟨_, exec_advr_idle n hidle, s.setRcur_slot _, rfl, rfl, rfl⟩
    · exact ⟨_, exec_advr_refused n hidle, s.setBadcmd_slot, rfl, rfl, rfl⟩
  · by_cases hidle : s.phase = .idle
    · exact ⟨_, exec_arm_idle hidle, s.armTransfer_slot _ _, rfl, rfl, rfl⟩
    · exact ⟨_, exec_arm_refused hidle, s.setBadcmd_slot, rfl, rfl, rfl⟩

/-! ### Which accesses reach the register space, and which are well formed -/

theorem reaches_iff {p : Params} {addr n : Nat} :
    reaches p addr n = true ↔ 0 < n ∧ addr < p.base + 0x100 ∧ p.base < addr + n := by
  simp [reaches, and_assoc]

theorem accessOk_iff {p : Params} {addr n : Nat} :
    accessOk p addr n = true ↔ n = 4 ∧ p.base ≤ addr ∧ (addr - p.base) % 4 = 0 ∧ addr - p.base ≤ 0xFC := by
  simp [accessOk, and_assoc]

/-! ### Reads -/

theorem takeEvent_read_reached {s : State} {addr n : Nat} (h : reaches s.params addr n = true) :
    takeEvent (.host (.read addr n)) s = .next (s.reply (readBytes s addr n)) := if_pos h

theorem takeEvent_read_outside {s : State} {addr n : Nat} (h : ¬reaches s.params addr n = true) :
    takeEvent (.host (.read addr n)) s = .next s := if_neg h

theorem readBytes_register (s : State) {k : Nat} (hk : k < 64) :
    readBytes s (s.params.base + 4 * k) 4 = bytesOfWord (regRead s (4 * k)) := by
  have hok : accessOk s.params (s.params.base + 4 * k) 4 = true := accessOk_iff.mpr (by omega)
  rw [readBytes, if_pos hok, Nat.add_sub_cancel_left]

theorem readBytes_illFormed {s : State} {addr n : Nat} (h : n ≠ 4 ∨ (addr - s.params.base) % 4 ≠ 0) :
    readBytes s addr n = List.replicate n 0 := by
  have hbad : ¬accessOk s.params addr n = true := by rw [accessOk_iff]; omega
  exact if_neg hbad

/-! ### Registers: the value at each offset of R37, a field narrower than a word zero-extended -/

theorem regRead_cmd (s : State) : regRead s 0x00 = 0 := rfl

theorem regRead_status (s : State) : regRead s 0x04 = s.status := rfl

theorem regRead_wcur_toNat (s : State) : (regRead s 0x08).toNat = s.wcur.toNat :=
  BitVec.toNat_setWidth_of_le (by decide)

theorem regRead_rcur_toNat (s : State) : (regRead s 0x0C).toNat = s.rcur.toNat :=
  BitVec.toNat_setWidth_of_le (by decide)

theorem regRead_cap_toNat (s : State) : (regRead s 0x10).toNat = s.params.cap :=
  (BitVec.toNat_setWidth_of_le (by decide)).trans (capCount_toNat s.params)

theorem regRead_xsrc_toNat (s : State) : (regRead s 0x14).toNat = s.xsrc.toNat :=
  BitVec.toNat_setWidth_of_le (by decide)

theorem regRead_xlen_toNat (s : State) : (regRead s 0x18).toNat = s.xlen.toNat :=
  BitVec.toNat_setWidth_of_le (by decide)

theorem regRead_xcnt_toNat (s : State) : (regRead s 0x1C).toNat = s.xcnt.toNat :=
  BitVec.toNat_setWidth_of_le (by decide)

theorem regRead_reserved (s : State) {off : Nat} (h : 0x20 ≤ off) : regRead s off = 0 := by
  obtain ⟨d, rfl⟩ := Nat.exists_eq_add_of_le' h
  rfl

/-- Settles O49: the access is well formed at each of the 64 offsets, so the reply is the register's value. -/
theorem registerReads : Obligations.RegisterReads := by
  intro s k hk
  have hread := takeEvent_read_reached (s := s) (addr := s.params.base + 4 * k) (n := 4) (reaches_iff.mpr (by omega))
  rw [readBytes_register s hk] at hread
  refine ⟨regRead s (4 * k), _, hread, rfl, rfl, ?cmd, ?status, ?wcur, ?rcur, ?cap, ?xsrc, ?xlen, ?xcnt, ?reserved⟩
  case cmd => rintro rfl; exact regRead_cmd s
  case status => rintro rfl; exact regRead_status s
  case wcur => rintro rfl; exact regRead_wcur_toNat s
  case rcur => rintro rfl; exact regRead_rcur_toNat s
  case cap => rintro rfl; exact regRead_cap_toNat s
  case xsrc => rintro rfl; exact regRead_xsrc_toNat s
  case xlen => rintro rfl; exact regRead_xlen_toNat s
  case xcnt => rintro rfl; exact regRead_xcnt_toNat s
  case reserved => exact fun h => regRead_reserved s (by omega)

/-! ### Writes that are no commands -/

theorem takeEvent_write_other {s : State} {addr : Nat} {bytes : List Byte}
    (h : ¬(bytes.length = 4 ∧ addr = s.params.base)) : takeEvent (.host (.write addr bytes)) s = .next s := by
  have hno : ¬(accessOk s.params addr bytes.length && addr - s.params.base == 0) = true := by
    rw [Bool.and_eq_true, accessOk_iff, beq_iff_eq]
    omega
  exact if_neg hno

/-- Settles O50: a write that is no command word has no effect, an ill-formed read inside the space is answered with
zeros, and a read outside it does not reach the RBC. -/
theorem otherAccessesChangeNothing : Obligations.OtherAccessesChangeNothing := by
  intro s addr
  refine ⟨fun bytes hno => takeEvent_write_other hno, fun n hn hlo hhi hbad => ?_, fun n hout => ?_⟩
  · rw [takeEvent_read_reached (reaches_iff.mpr (by omega)), readBytes_illFormed hbad]
    rfl
  · exact takeEvent_read_outside (by rw [reaches_iff]; omega)

end Sys2Proof.Machine
end

section
/-! PROOFS. The statements about exceptions (spec/60_exceptions.md): a command works or is refused (R232), the Engine has at
most one step to take (R235), and nothing traps or halts (R230). -/

namespace Sys2Proof.Machine

/-! ### A refused command (R232) -/

/-- `i` is one of the two commands that need IDLE (R122, R171), and PHASE is another. -/
def Refused (i : Instr) (s : State) : Prop := s.phase ≠ .idle ∧ (i = .arm ∨ ∃ n, i = .advr n)

theorem exec_of_refused {i : Instr} {s : State} (h : Refused i s) : exec i s = .next s.setBadcmd := by
  obtain ⟨hbusy, rfl | ⟨n, rfl⟩⟩ := h
  · exact exec_arm_refused hbusy
  · exact exec_advr_refused n hbusy

theorem exec_badcmd_of_not_refused {i : Instr} {s t : State} (hnot : ¬Refused i s) (h : exec i s = .next t) :
    t.badcmd = s.badcmd := by
  cases i with
  | nop => cases h; rfl
  | push v => exact tryWrite_badcmd h
  | ingb last b =>
    cases hp : s.pendb with
    | true =>
      rw [exec_ingb_second last b hp] at h
      exact (tryWrite_badcmd h).trans s.clearPending_badcmd
    | false =>
      cases last with
      | true => rw [exec_ingb_oddLast b hp] at h; cases h; rfl
      | false => rw [exec_ingb_first b hp] at h; cases h; rfl
  | inge => cases h; rfl
  | advr n =>
    have hidle : s.phase = .idle := by_contra fun hbusy => hnot ⟨hbusy, .inr ⟨n, rfl⟩⟩
    rw [exec_advr_idle n hidle] at h
    cases h
    rfl
  | arm =>
    have hidle : s.phase = .idle := by_contra fun hbusy => hnot ⟨hbusy, .inl rfl⟩
    rw [exec_arm_idle hidle] at h
    cases h
    rfl

/-- Settles O29: an ill-formed word and a refused command are `BADCMD <- 1`, and no other command writes BADCMD. -/
theorem commandExecutesOrIsRefused : Obligations.CommandExecutesOrIsRefused := by
  intro w s refused
  have hset : refused → runCommand w s = .next s.setBadcmd := by
    rintro (hill | ⟨hbusy, harm | ⟨n, hadvr⟩⟩)
    · exact runCommand_of_ill hill s
    · exact (runCommand_of_cmd harm s).trans (exec_of_refused ⟨hbusy, .inl rfl⟩)
    · exact (runCommand_of_cmd hadvr s).trans (exec_of_refused ⟨hbusy, .inr ⟨n, rfl⟩⟩)
  have hexec : ¬refused → ∃ i, decode w = .cmd i ∧ runCommand w s = exec i s ∧
      ∀ t, runCommand w s = .next t → t.badcmd = s.badcmd := by
    intro hnot
    cases hd : decode w with
    | ill => exact absurd (.inl hd) hnot
    | cmd i =>
      have hi : ¬Refused i s := by
        rintro ⟨hbusy, rfl | ⟨n, rfl⟩⟩
        · exact hnot (.inr ⟨hbusy, .inl hd⟩)
        · exact hnot (.inr ⟨hbusy, .inr ⟨n, hd⟩⟩)
      have hrun := runCommand_of_cmd hd s
      exact ⟨i, rfl, hrun, fun t ht => exec_badcmd_of_not_refused hi (hrun.symm.trans ht)⟩
  refine ⟨hset, hexec, fun hclear t ht => ⟨fun hbad => ?_, fun href => ?_⟩⟩
  · by_contra hnot
    obtain ⟨i, _, _, hkeep⟩ := hexec hnot
    rw [hkeep t ht, hclear] at hbad
    exact Bool.false_ne_true hbad
  · rw [hset href] at ht
    cases ht
    rfl

/-! ### The Engine's one step (R235) -/

/-- Each Engine step is enabled in a PHASE of its own, where it is the candidate. -/
theorem engineCandidate_of_enabled {e : EngineStep} {s : State} (h : e.enabled s = true) :
    engineCandidate s = some e := by
  cases e with
  | fetch =>
    simp only [EngineStep.enabled, Bool.and_eq_true, beq_iff_eq] at h
    obtain ⟨⟨hp, _⟩, _⟩ := h
    simp [engineCandidate, hp]
  | ack =>
    have hp : s.phase = .cAck := eq_of_beq h
    simp [engineCandidate, hp]
  | adv =>
    have hp : s.phase = .cAdv := eq_of_beq h
    simp [engineCandidate, hp]
  | rearm =>
    have hp : s.phase = .cRearm := eq_of_beq h
    simp [engineCandidate, hp]

theorem engineTurn_of_enabled {e : EngineStep} {s : State} (h : e.enabled s = true) : engineTurn s = e.run s := by
  simp [engineTurn, engineCandidate_of_enabled h, h]

theorem engineEnabled_eq_false {s : State} (h : ∀ e : EngineStep, e.enabled s = false) : engineEnabled s = false := by
  unfold engineEnabled
  cases engineCandidate s with
  | none => rfl
  | some e => exact h e

/-- Settles O37: the enabled step is the PHASE's one candidate, and the Engine's turn runs it. -/
theorem oneEngineStepEnabled : Obligations.OneEngineStepEnabled := by
  refine fun s => ⟨fun d e hd he => ?_, fun e he => ?_, fun hnone => ?_⟩
  · exact Option.some.inj ((engineCandidate_of_enabled hd).symm.trans (engineCandidate_of_enabled he))
  · rw [takeEvent, engineTurn_of_enabled he]
  · rw [takeEvent, engineTurn_of_not_enabled (engineEnabled_eq_false hnone)]

/-! ### No step stops (R230) -/

/-- Settles O57: WCUR is in range (R36) when the event is taken, so no storage write faults. -/
theorem stepNeverStops : Obligations.StepNeverStops := by
  intro s hs
  have ⟨⟨hw, _⟩, _⟩ := inv_nextEvent hs
  exact takeEvent_completes (nextEvent s).1 hw

end Sys2Proof.Machine
end

section
/-! PROOFS. The statement about reset at any time (spec/70_reset_and_hazards.md R260). -/

namespace Sys2Proof.Machine

/-- After a reset the cursors, PHASE and the flags have their values of R39, so STATUS reads 1. -/
@[simp] theorem State.applyReset_status (s : State) : s.applyReset.status = 1 :=
  State.status_of_reset_values s.applyReset_wcur s.applyReset_rcur s.applyReset_phase s.applyReset_pendb
    s.applyReset_lpv s.applyReset_lpok s.applyReset_badcmd

/-- A reset abandons the transfer in flight: PHASE is IDLE, where the Engine has no step. -/
theorem takeEvent_engine_applyReset (s : State) : takeEvent .engine s.applyReset = .next s.applyReset := by
  rw [takeEvent, engineTurn_idle s.applyReset_phase]

/-- Settles O53: reset completes in every state, and each field and slot after it is read off by its own law. -/
theorem resetAtAnyTime : Obligations.ResetAtAnyTime := fun s =>
  ⟨s.applyReset, rfl, s.applyReset_wcur, s.applyReset_rcur, s.applyReset_phase, s.applyReset_xsrc, s.applyReset_xlen,
    s.applyReset_xcnt, s.applyReset_pendb, s.applyReset_pendlo, s.applyReset_lpv, s.applyReset_lpok,
    s.applyReset_badcmd, s.applyReset_sfifo, s.applyReset_out, s.applyReset_params, s.applyReset_status,
    takeEvent_engine_applyReset s, s.applyReset_slot⟩

end Sys2Proof.Machine
end
